-- ==== Sys2Proof/Word.lean ====
section
/-! DEFINITION. The plain data of the block: the bit frame, the 37-bit CT word, the daylight-saving states, the calendar
time, the STATUS record and the two advances asked of the time-arithmetic primitive. Types only; every computation on
them stands in files that a repair may change. -/

namespace Sys2Proof

/-- Number of frame positions, 0 to 58 (`10_state.md` R26). -/
abbrev frameLen : Nat := 59

/-- The bit frame: bit `i` of the vector is position `i` (`00_scope.md` R5, `20_memory.md` R52). Also the PARITY operand
`pdata` (`30_encoding.md` R78). -/
abbrev Frame := BitVec 59

/-- A calendar time as it travels on `t`, `ta_t`, `ta_r` (`30_encoding.md` R72). -/
abbrev CtWord := BitVec 37

/-- The 2-bit daylight-saving code as a name, one per code (`30_encoding.md` R73). -/
inductive Dst where
  /-- 0, NOT: not in effect. -/
  | notInEffect
  /-- 1, IN: in effect. -/
  | inEffect
  /-- 2, UNK: unknown. -/
  | unknown
  /-- 3: reserved, illegal (`30_encoding.md` R81). -/
  | reserved
deriving DecidableEq, Repr, Inhabited

/-- The document's three daylight-saving states, without the reserved code: what `DstNext` answers
(`42_time_arith.md` R159). -/
inductive DstState where
  | notInEffect
  | inEffect
  | unknown
deriving DecidableEq, Repr, Inhabited

/-- The two questions put to the time-arithmetic primitive (`42_time_arith.md` R150, R154). -/
inductive Advance where
  /-- 60 seconds, `ta_sel` = 0: the answer is NM. -/
  | minute
  /-- 3600 seconds, `ta_sel` = 1: the answer is NH. -/
  | hour
deriving DecidableEq, Repr, Inhabited

/-- A calendar time, the fields of `30_encoding.md` R72, each an unsigned binary number of the width given there. There is
no seconds field. -/
structure CalendarTime where
  minute : BitVec 6
  hour   : BitVec 5
  day    : BitVec 5
  /-- 0 = Sunday to 6 = Saturday (`30_encoding.md` R74). -/
  dow    : BitVec 3
  month  : BitVec 4
  year   : BitVec 12
  dst    : Dst
deriving DecidableEq, Repr, Inhabited

/-- The encode result STATUS, eight fields (`10_state.md` R28). -/
structure Status where
  year   : BitVec 12
  month  : BitVec 4
  day    : BitVec 5
  /-- 1 = Monday to 7 = Sunday. -/
  wday   : BitVec 3
  hour   : BitVec 5
  minute : BitVec 6
  /-- Copy of frame position 16. -/
  a1     : Bool
  /-- Copy of frame position 17. -/
  z1     : Bool
deriving DecidableEq, Repr, Inhabited

end Sys2Proof
end

