-- ==== Sys2Proof/Machine/Flags.lean ====
section
/-! DEFINITION. The protocol flag bits of the frame, positions 0, 15 to 20 (`10_state.md` R31 (a)). The block has no
condition codes (R31). -/

namespace Sys2Proof.Machine

/-- Position 0, start-of-minute marker, and positions 1 to 14, 15, 19: constant 0 (`41_encode.md` R115, R116, R117, R121). -/
def flagZero : Bool := false

/-- Position 16, A1: the state of now and the state one hour ahead, compared as they stand (`41_encode.md` R118). -/
def flagA1 (now nextHour : Dst) : Bool := decide (now ≠ nextHour)

/-- Position 17, Z1: 1 exactly when the next minute's state is "in effect" (`41_encode.md` R119). -/
def flagZ1 (nextMinute : Dst) : Bool := decide (nextMinute = .inEffect)

/-- Position 18, Z2: the negation of position 17 (`41_encode.md` R120). -/
def flagZ2 (z1 : Bool) : Bool := !z1

/-- Position 20, start-of-time-code marker: constant 1 (`41_encode.md` R122). -/
def flagS : Bool := true

end Sys2Proof.Machine
end

