-- ==== Sys2Proof/Machine/Operands.lean ====
section
/-! DEFINITION. Every operand form: the range predicate of a calendar time, the legal range of PARITY, and how each number
of the frame is assembled from a calendar time. Natural-number arithmetic only (`00_scope.md` R6, `41_encode.md` R124). -/

namespace Sys2Proof.Machine

/-- `InRangeCT(X)`: every field holds a legal value (`92_eei_decisions.md` D28, `30_encoding.md` R72, R81). The year may be
any 12-bit value. -/
def inRangeCT (x : CalendarTime) : Bool :=
  decide (x.minute.toNat ≤ 59) && decide (x.hour.toNat ≤ 23) &&
  (decide (1 ≤ x.day.toNat) && decide (x.day.toNat ≤ 31)) && decide (x.dow.toNat ≤ 6) &&
  (decide (1 ≤ x.month.toNat) && decide (x.month.toNat ≤ 12)) && decide (x.dst ≠ .reserved)

/-- The legal operands of PARITY, 0 ≤ plo ≤ phi ≤ 59 (`30_encoding.md` R78, `40_parity.md` R104). -/
def legalRange (lo hi : BitVec 6) : Bool :=
  decide (lo.toNat ≤ hi.toNat) && decide (hi.toNat ≤ 59)

/-- The units digit of a number (`41_encode.md` R124). -/
def unitsDigit (v : Nat) : Nat := v % 10

/-- The tens digit of a number of at most two digits (`41_encode.md` R124). -/
def tensDigit (v : Nat) : Nat := v / 10

/-- The weekday as the frame numbers it: 1 = Monday to 7 = Sunday, the platform's 0 remapped to 7 (`41_encode.md` R131). -/
def frameWeekday (dow : BitVec 3) : BitVec 3 := if dow = 0 then 7 else dow

/-- The year within its century (`41_encode.md` R134). -/
def yearInCentury (year : BitVec 12) : Nat := year.toNat % 100

/-- What ENCODE uses of the answer to the 3600-second question: its daylight-saving field and nothing else
(`30_encoding.md` R79). -/
def nextHourDst (nh : CalendarTime) : Dst := nh.dst

/-- The STATUS record of an encoded minute (`41_encode.md` R137). -/
def statusOf (nm : CalendarTime) (a1 z1 : Bool) : Status :=
  { year := nm.year, month := nm.month, day := nm.day, wday := frameWeekday nm.dow,
    hour := nm.hour, minute := nm.minute, a1 := a1, z1 := z1 }

end Sys2Proof.Machine
end

