-- ==== Sys2Proof/Config.lean ====
section
/-! DEFINITION. What the spec leaves open, as constants without a body: nothing about their values can be evaluated or
proved, so a claim that mentions one holds whatever it is. -/

namespace Sys2Proof.Config

/-- The time-arithmetic primitive `TimeAdd` of the platform the block is attached to, OPEN (`42_time_arith.md` R150,
`92_eei_decisions.md` D8); `none` is the answer "cannot resolve" (R153). A function of its two arguments (R152). Log 2. -/
opaque timeAdd : CalendarTime → Advance → Option CalendarTime

/-- `DstNext(T, s)` of the reference instance, OPEN (`42_time_arith.md` R159). Log 2. -/
opaque dstNext : CalendarTime → Advance → DstState

/-- LAT_ENCODE is OPEN (`70_reset_and_hazards.md` R204): the further clock edges ENCODE takes after the second answer of
the primitive before its results are written. Log 5. -/
opaque latEncodeWork : Nat

/-- LAT_PARITY is OPEN and at least 1 (`70_reset_and_hazards.md` R204): LAT_PARITY - 1. Log 5. -/
opaque latParityWork : Nat

/-- The n-th free content of FRAME, where the spec gives it no value (`10_state.md` R36, `20_memory.md` R59). Log 1. -/
opaque freeFrame : Nat → Frame

/-- The n-th free content of STATUS, where the spec gives it no value (`10_state.md` R36). Log 1. -/
opaque freeStatus : Nat → Status

/-- The n-th free value on `ta_sel`, where the spec states none (`42_time_arith.md` R154). Log 14. -/
opaque freeAdvance : Nat → Advance

/-- The n-th free value on `ta_t`, where the spec states none (`10_state.md` R21). Log 14. -/
opaque freeCtWord : Nat → CtWord

/-- The n-th free content of PBIT, where the spec gives it no value (`10_state.md` R36). Log 1. -/
opaque freeBit : Nat → Bool

end Sys2Proof.Config
end

