-- ==== Sys2Proof/Syntax.lean ====
section
/-! DEFINITION. The operations of the block as syntax: one constructor per row of spec/opcode_table.json, and the six named
uses of PARITY. -/

namespace Sys2Proof

/-- An operation with its operands (`30_encoding.md` R71). -/
inductive Instr where
  /-- ENCODE, format E: the calendar time T (`41_encode.md` R110). -/
  | encode (t : CalendarTime)
  /-- PARITY, format P: the vector `pdata` and the half-open range `[plo, phi)` (`40_parity.md` R103). -/
  | parity (pdata : Frame) (plo phi : BitVec 6)
deriving DecidableEq, Repr, Inhabited

/-- `PAR.MIN B` (`30_encoding.md` R85). -/
abbrev Instr.parMin (b : Frame) : Instr := .parity b 21 28
/-- `PAR.HOUR B` (`30_encoding.md` R85). -/
abbrev Instr.parHour (b : Frame) : Instr := .parity b 29 35
/-- `PAR.DATE B` (`30_encoding.md` R85). -/
abbrev Instr.parDate (b : Frame) : Instr := .parity b 36 58
/-- `CHK.MIN B` (`30_encoding.md` R85). -/
abbrev Instr.chkMin (b : Frame) : Instr := .parity b 21 29
/-- `CHK.HOUR B` (`30_encoding.md` R85). -/
abbrev Instr.chkHour (b : Frame) : Instr := .parity b 29 36
/-- `CHK.DATE B` (`30_encoding.md` R85). -/
abbrev Instr.chkDate (b : Frame) : Instr := .parity b 36 59

end Sys2Proof
end

