-- ==== Sys2Proof/Decode.lean ====
section
/-! DEFINITION. From port words to operations and back: the CT word (`30_encoding.md` R72), the daylight-saving code (R73),
the operation select (R70) and the operand formats (R71). Both values of `op` are assigned (R82), so no command is
rejected here; operand values the spec calls illegal are refused, by name, by the operation (R81; log 9, log 10). -/

namespace Sys2Proof

/-- The daylight-saving state a 2-bit code names (`30_encoding.md` R73). -/
def dstOfBits (b : BitVec 2) : Dst :=
  if b = 0 then .notInEffect else if b = 1 then .inEffect else if b = 2 then .unknown else .reserved

/-- The 2-bit code of a daylight-saving state (`30_encoding.md` R73). -/
def bitsOfDst : Dst → BitVec 2
  | .notInEffect => 0
  | .inEffect => 1
  | .unknown => 2
  | .reserved => 3

/-- The calendar time a CT word carries (`30_encoding.md` R72). -/
def ctOfWord (w : CtWord) : CalendarTime :=
  { minute := w.extractLsb' 0 6
    hour   := w.extractLsb' 6 5
    day    := w.extractLsb' 11 5
    dow    := w.extractLsb' 16 3
    month  := w.extractLsb' 19 4
    year   := w.extractLsb' 23 12
    dst    := dstOfBits (w.extractLsb' 35 2) }

/-- The CT word of a calendar time, most significant field first (`30_encoding.md` R72). -/
def wordOfCt (t : CalendarTime) : CtWord :=
  bitsOfDst t.dst ++ t.year ++ t.month ++ t.dow ++ t.day ++ t.hour ++ t.minute

/-- The values on the command ports in the cycle a command is accepted (`10_state.md` R21, `30_encoding.md` R71). -/
structure CommandPorts where
  op    : BitVec 1
  t     : CtWord
  pdata : Frame
  plo   : BitVec 6
  phi   : BitVec 6
deriving DecidableEq, Repr, Inhabited

/-- The operation the ports select: `op` = 0 is ENCODE, `op` = 1 is PARITY (`30_encoding.md` R70); ports outside the
selected format are ignored (R71). -/
def decode (c : CommandPorts) : Instr :=
  if c.op = 0 then .encode (ctOfWord c.t) else .parity c.pdata c.plo c.phi

/-- The port words of an operation (`30_encoding.md` R70, R71); a port outside its format carries 0. -/
def encode : Instr → CommandPorts
  | .encode t => { op := 0, t := wordOfCt t, pdata := 0, plo := 0, phi := 0 }
  | .parity pdata lo hi => { op := 1, t := 0, pdata := pdata, plo := lo, phi := hi }

/-- The ports for an operation word as spec/opcode_table.json numbers it: the word is the single bit `op` (`30_encoding.md`
R70); the operand ports carry 0. -/
def tablePorts (nbits w : Nat) : CommandPorts :=
  { op := BitVec.ofNat 1 (w % 2 ^ nbits), t := 0, pdata := 0, plo := 0, phi := 0 }

/-- What the decoder reads from an operation word, its operand words being 0. -/
def decodeTableWord (nbits w : Nat) : Option Instr := some (decode (tablePorts nbits w))

end Sys2Proof
end

