-- ==== Sys2Proof/Machine/State.lean ====
section
/-! DEFINITION. The state of the block and of what stands around it, as plain data, with the reasons a step can stop and
the state after reset. -/

namespace Sys2Proof.Machine

/-- The one fault of the model. The block itself raises none (`60_exceptions.md` R170). -/
inductive Fault where
  /-- Raised by a host read of a frame position at or above 59: the spec says there is no such cell (`20_memory.md` R50).
  Safe: the model stops where no hardware access exists (log 4). -/
  | noSuchCell
deriving DecidableEq, Repr

/-- Why an operation or a read has no meaning (`60_exceptions.md` R171, R173). Labels of the spec, not hardware codes. -/
inductive Refusal where
  /-- An operation without a meaning in this model, rejected by name in exec. Safe: the model stops. No arm uses it. -/
  | notModelled (mnemonic : String)
  /-- Raised by ENCODE: a field of T, of NM, or NH.dst has an illegal value (`41_encode.md` R113). Safe: the model stops
  where the document says "undefined behavior". -/
  | invalidCalendarTime
  /-- Raised by ENCODE: the primitive cannot resolve one of the two answers (`42_time_arith.md` R153). Safe: the model
  stops where the document says "behavior is undefined". -/
  | timeArithmeticUnresolved
  /-- Raised by PARITY: plo > phi or phi > 59 (`40_parity.md` R104). Safe: the model stops outside the contract. -/
  | illFormedRange
  /-- Raised by any operation and by a clock cycle: a command while busy, an acknowledge without a pending request, a torn
  operand (`60_exceptions.md` R171). Safe: the model stops where the host broke the protocol. -/
  | protocolViolation
  /-- Raised by a host read of FRAME, STATUS or PBIT in a window in which the spec refuses that read by this name
  (`60_exceptions.md` R171, R173, `93_implementation_defined.md` U5, U6, `70_reset_and_hazards.md` R197). Safe: the model
  stops where the spec says the model refuses. -/
  | readWithoutValue
deriving DecidableEq, Repr

/-- A port as it stands in the cycle it is sampled: one consistent value, or torn (`70_reset_and_hazards.md` R196,
log 11). -/
inductive Sampled (w : Nat) where
  | whole (v : BitVec w)
  | torn
deriving DecidableEq, Repr

/-- The input pins of one clock cycle (`10_state.md` R21). `taLate` is no wire but a fact about the acknowledge of this cycle,
as `torn` is one about a port (log 13). -/
structure Pins where
  rst   : Bool
  start : Bool
  op    : BitVec 1
  t     : Sampled 37
  pdata : Sampled 59
  plo   : Sampled 6
  phi   : Sampled 6
  taAck : Bool
  /-- The acknowledge answers a request that a reset abandoned (`70_reset_and_hazards.md` R190). -/
  taLate : Bool
  taR   : Sampled 37
deriving DecidableEq, Repr

/-- What a host read samples (`30_encoding.md` R84; the output ports of `10_state.md` R21). -/
inductive ReadItem where
  /-- All 59 cells (`20_memory.md` R57). -/
  | frame
  /-- `MemRead(p, n)`: n cells from position p, `frame[p+n-1:p]` (`00_scope.md` R7, `20_memory.md` R55). -/
  | cells (p n : Nat)
  | status
  | pbit
  | frameValid
  | pbitValid
  | busy
  | done
  /-- The request the primitive sees: `ta_req` with `ta_sel` and `ta_t`. -/
  | taRequest
  | taReq
  | taSel
  | taT
deriving DecidableEq, Repr

/-- What a host read found. Where a port shows a value the spec does not state in every cycle, the first argument says
whether it states this one; if not, the value is a free one. -/
inductive Observation where
  | frame (f : Frame)
  | cells (p n v : Nat)
  /-- Stated when STATUS is valid (`10_state.md` R28). -/
  | status (stated : Bool) (st : Status)
  | pbit (b : Bool)
  | frameValid (b : Bool)
  | pbitValid (b : Bool)
  | busy (b : Bool)
  | done (b : Bool)
  /-- `none` when `ta_req` = 0, else the advance asked and the CT word on `ta_t`. -/
  | taRequest (r : Option (Advance × CtWord))
  | taReq (b : Bool)
  /-- Stated in the cycle of a request (`42_time_arith.md` R154). -/
  | taSel (stated : Bool) (a : Advance)
  /-- Stated while an ENCODE is in progress (`10_state.md` R21). -/
  | taT (stated : Bool) (w : CtWord)
deriving DecidableEq, Repr

/-- One action of the host (`30_encoding.md` R84). -/
inductive HostAction where
  /-- RESET: `rst` = 1 for one cycle (`70_reset_and_hazards.md` R190). -/
  | reset
  /-- ENCODE or PARITY as one whole operation, from command to result (`00_scope.md` R9). -/
  | command (c : CommandPorts)
  /-- READ. -/
  | read (r : ReadItem)
  /-- One rising edge of `clk` with these input pins (`10_state.md` R21). -/
  | clock (p : Pins)
deriving DecidableEq, Repr

/-- One listed answer of a time-arithmetic instance; `none` is "cannot resolve". -/
structure TaRow where
  t      : CalendarTime
  adv    : Advance
  answer : Option CalendarTime
deriving DecidableEq, Repr

/-- One listed value of `DstNext` (`42_time_arith.md` R159). -/
structure DstRow where
  t   : CalendarTime
  adv : Advance
  dst : DstState
deriving DecidableEq, Repr

/-- The instance of `TimeAdd` the block is attached to, as plain data (`42_time_arith.md` R150). -/
inductive Platform where
  /-- The platform's own primitive, OPEN: `Config.timeAdd`. -/
  | external
  /-- An instance given by the list of its answers; a question not listed cannot be resolved. -/
  | listed (rows : List TaRow)
  /-- The reference instance with YEAR_BASE = 100 * century and the listed values of `DstNext`, `Config.dstNext` where
  none is listed (`42_time_arith.md` R157, R159). -/
  | reference (century : Nat) (dst : List DstRow)
deriving DecidableEq, Repr

/-- Where an ENCODE in progress stands in the exchange with the primitive (`42_time_arith.md` R154). -/
inductive EncodePhase where
  /-- The cycle in which `ta_req` = 1, `ta_sel` = 0. -/
  | request60
  | wait60
  /-- The cycle in which `ta_req` = 1, `ta_sel` = 1; NM is held. -/
  | request3600 (nm : CalendarTime)
  | wait3600 (nm : CalendarTime)
  /-- Both answers are held; `left` further edges come before the last one. -/
  | filling (nm : CalendarTime) (nhDst : Dst) (left : Nat)
deriving DecidableEq, Repr

/-- The operation in progress with its sampled operands (`10_state.md` R30). -/
inductive InFlight where
  | encode (t : CalendarTime) (phase : EncodePhase)
  | parity (pdata : Frame) (plo phi : BitVec 6) (left : Nat)
deriving DecidableEq, Repr

/-- Everything the spec gives the block (`10_state.md` R26 to R30, R36), then the model's own fields. -/
structure State where
  /-- FRAME (`10_state.md` R26). -/
  frame      : Frame
  /-- FRAME_VALID (R27). -/
  frameValid : Bool
  /-- STATUS (R28). -/
  status     : Status
  /-- PBIT (R29). -/
  pbit       : Bool
  /-- PBIT_VALID (R29). -/
  pbitValid  : Bool
  /-- The operation in progress; BUSY is 1 exactly when there is one (R30). -/
  inflight   : Option InFlight
  /-- The output `done` (R21). -/
  done       : Bool
  /-- The instance of `TimeAdd` the block is attached to. -/
  platform   : Platform
  /-- What the host does next, first action first. -/
  script     : List HostAction
  /-- What the host has read, newest first. -/
  seen       : List Observation
  /-- How many free values have been drawn. -/
  draws      : Nat
deriving DecidableEq, Repr

/-- BUSY (`10_state.md` R30): one home, `inflight`. -/
def State.busy (s : State) : Bool := s.inflight.isSome

/-- The state after reset (`10_state.md` R36, `70_reset_and_hazards.md` R190). FRAME, STATUS and PBIT are given no value by
the spec and hold free values (log 1); the block is attached to the OPEN primitive (log 2); the host has not acted yet
(log 3). -/
def State.reset : State :=
  { frame := Config.freeFrame 0, frameValid := false, status := Config.freeStatus 0
    pbit := Config.freeBit 0, pbitValid := false, inflight := none, done := false
    platform := .external, script := [], seen := [], draws := 1 }

end Sys2Proof.Machine
end

