-- ==== Sys2Proof/Machine/Ops.lean ====
section
/-! DEFINITION. The shared operations: cell access of a frame, the parity function, accepting a command, completing an
operation, drawing free values, and reset. The block takes no exception and returns from none (`60_exceptions.md` R170,
R178, R179), so no operation of that kind stands here. -/

namespace Sys2Proof.Machine

/-- The outcome of a step of this machine. -/
abbrev Out := Host.Outcome State Fault Refusal

/-- `F[p] <- b` (`00_scope.md` R7). -/
def setCell (f : Frame) (p : Nat) (b : Bool) : Frame :=
  if b then f ||| BitVec.twoPow 59 p else f &&& ~~~(BitVec.twoPow 59 p)

/-- `F[p]` (`00_scope.md` R7). -/
def getCell (f : Frame) (p : Nat) : Bool := f.getLsbD p

/-- `MemWrite(p, n, v)`: cell p+k receives bit k of v, for k below n (`00_scope.md` R7, `20_memory.md` R53). -/
def memWrite (f : Frame) (p : Nat) : Nat → Nat → Frame
  | 0, _ => f
  | n + 1, v => setCell (memWrite f p n v) (p + n) (v.testBit n)

/-- `MemRead(p, n)`: the number whose bit k is cell p+k (`00_scope.md` R7, `20_memory.md` R54). -/
def memRead (f : Frame) (p : Nat) : Nat → Nat
  | 0 => 0
  | n + 1 => memRead f p n + (getCell f (p + n)).toNat * 2 ^ n

/-- The number of ones among the `n` cells from position `lo`. -/
def onesFrom (b : Frame) (lo : Nat) : Nat → Nat
  | 0 => 0
  | n + 1 => onesFrom b lo n + (getCell b (lo + n)).toNat

/-- `Par(B, lo, hi)`: 1 if the number of ones in `[lo, hi)` is odd (`40_parity.md` R100). -/
def par (b : Frame) (lo hi : Nat) : Bool := decide (onesFrom b lo (hi - lo) % 2 = 1)

/-- A group of adjacent cells written together: `MemWrite(pos, width, value)`. -/
structure CellGroup where
  pos   : Nat
  width : Nat
  value : Nat
deriving DecidableEq, Repr

/-- Write the groups, first group first (`41_encode.md` R111). -/
def writeGroups (f : Frame) : List CellGroup → Frame
  | [] => f
  | g :: gs => writeGroups (memWrite f g.pos g.width g.value) gs

/-- A command is accepted only when BUSY = 0; a command while busy is a protocol violation, not a queued request
(`10_state.md` R21, `60_exceptions.md` R177 (c), `70_reset_and_hazards.md` R198). -/
def accept (s : State) (out : Out) : Out :=
  if s.busy then .refused .protocolViolation else out

/-- Completion of an ENCODE: FRAME and STATUS receive the result, FRAME_VALID becomes 1, BUSY becomes 0, `done` becomes 1
(`41_encode.md` R110, `10_state.md` R27, R30, log 6). -/
def completeEncode (s : State) (f : Frame) (st : Status) : State :=
  { s with frame := f, status := st, frameValid := true, inflight := none, done := true }

/-- Completion of a PARITY: PBIT receives the result, PBIT_VALID becomes 1, BUSY becomes 0, `done` becomes 1
(`40_parity.md` R103, `10_state.md` R29, R30, log 6). -/
def completeParity (s : State) (b : Bool) : State :=
  { s with pbit := b, pbitValid := true, inflight := none, done := true }

/-- An ENCODE is in progress after this edge: FRAME and STATUS hold no defined value, so they hold a fresh free one
(`20_memory.md` R59, log 1). -/
def holdEncode (s : State) (t : CalendarTime) (phase : EncodePhase) : State :=
  { s with frame := Config.freeFrame s.draws, status := Config.freeStatus s.draws, draws := s.draws + 1
           inflight := some (.encode t phase), done := false }

/-- A PARITY is in progress after this edge: PBIT holds no defined value, so it holds a fresh free one
(`70_reset_and_hazards.md` R197, log 1). -/
def holdParity (s : State) (pdata : Frame) (plo phi : BitVec 6) (left : Nat) : State :=
  { s with pbit := Config.freeBit s.draws, draws := s.draws + 1
           inflight := some (.parity pdata plo phi left), done := false }

/-- A cycle without a command while nothing is in progress: `done` was 1 for its one cycle (`10_state.md` R21), nothing else
changes (`70_reset_and_hazards.md` R191). -/
def idleCycle (s : State) : State := { s with done := false }

/-- Reset of the block: valid flags, BUSY and `done` become 0, an operation in progress is abandoned, FRAME, STATUS and PBIT
hold no defined value (`70_reset_and_hazards.md` R190, `10_state.md` R36). What stands around the block is untouched. -/
def resetBlock (s : State) : State :=
  { s with frame := Config.freeFrame s.draws, frameValid := false, status := Config.freeStatus s.draws
           pbit := Config.freeBit s.draws, pbitValid := false, inflight := none, done := false
           draws := s.draws + 1 }

/-- The host records what it read. -/
def record (s : State) (o : Observation) : State := { s with seen := o :: s.seen }

/-- The host records a free value that it read, which is thereby drawn (logs 8, 14). -/
def recordDrawn (s : State) (o : Observation) : State := { s with seen := o :: s.seen, draws := s.draws + 1 }

/-- The host's coming actions are replaced. -/
def setScript (s : State) (acts : List HostAction) : State := { s with script := acts }

/-- An ENCODE is in progress. -/
def encodeInFlight (s : State) : Bool :=
  match s.inflight with
  | some (.encode _ _) => true
  | some (.parity _ _ _ _) => false
  | none => false

/-- A PARITY is in progress. -/
def parityInFlight (s : State) : Bool :=
  match s.inflight with
  | some (.encode _ _) => false
  | some (.parity _ _ _ _) => true
  | none => false

/-- The outputs `ta_req`, `ta_sel`, `ta_t`: the advance asked and the T of the ENCODE in progress in the one cycle of each
request, `none` when `ta_req` = 0 (`42_time_arith.md` R154). -/
def taRequest (s : State) : Option (Advance × CtWord) :=
  match s.inflight with
  | some (.encode t .request60) => some (.minute, wordOfCt t)
  | some (.encode t (.request3600 _)) => some (.hour, wordOfCt t)
  | _ => none

/-- The output `ta_sel` where the spec states it: in the one cycle of each request (`42_time_arith.md` R154). -/
def statedTaSel (s : State) : Option Advance := (taRequest s).map Prod.fst

/-- The output `ta_t` where the spec states it: always the T of the ENCODE in progress (`10_state.md` R21). -/
def statedTaT (s : State) : Option CtWord :=
  match s.inflight with
  | some (.encode t _) => some (wordOfCt t)
  | some (.parity _ _ _ _) => none
  | none => none

/-- STATUS where the spec states it: valid only with BUSY = 0 (`10_state.md` R28, log 8). -/
def statedStatus (s : State) : Option Status := if s.busy then none else some s.status

end Sys2Proof.Machine
end

