-- ==== Sys2Proof/Machine/TimeArith.lean ====
section
/-! DEFINITION. The time-arithmetic primitive as the block sees it, and the reference instance
(`42_time_arith.md`). -/

namespace Sys2Proof.Machine

/-- The Gregorian leap-year rule (`42_time_arith.md` R158). -/
def isLeapYear (y : Nat) : Bool := decide (y % 4 = 0) && (decide (y % 100 ≠ 0) || decide (y % 400 = 0))

/-- `DaysIn(month, y)` (`42_time_arith.md` R158). -/
def daysIn (month y : Nat) : Nat :=
  if month = 2 then (if isLeapYear y then 29 else 28)
  else if month = 4 ∨ month = 6 ∨ month = 9 ∨ month = 11 then 30
  else 31

/-- YEAR_BASE + year, YEAR_BASE being 100 * century (`00_scope.md` section 4). -/
def calendarYear (century : Nat) (year : BitVec 12) : Nat := 100 * century + year.toNat

/-- One day later, `none` if the year would exceed 4095 (`42_time_arith.md` R158). -/
def addOneDay (century : Nat) (t : CalendarTime) : Option CalendarTime :=
  let r := { t with dow := BitVec.ofNat 3 ((t.dow.toNat + 1) % 7) }
  if r.day.toNat < daysIn r.month.toNat (calendarYear century r.year) then some { r with day := r.day + 1 }
  else if r.month.toNat < 12 then some { r with day := 1, month := r.month + 1 }
  else if r.year.toNat < 4095 then some { r with day := 1, month := 1, year := r.year + 1 }
  else none

/-- One hour later by the wall clock (`42_time_arith.md` R158). -/
def addOneHour (century : Nat) (t : CalendarTime) : Option CalendarTime :=
  if t.hour.toNat < 23 then some { t with hour := t.hour + 1 }
  else addOneDay century { t with hour := 0 }

/-- `WallAdd(T, m)` with m = 1 for the 60-second advance and m = 60 for the 3600-second one (`42_time_arith.md` R158). The
dst field is carried along; the reference instance replaces it. -/
def wallAdd (century : Nat) (t : CalendarTime) : Advance → Option CalendarTime
  | .minute =>
    if t.minute.toNat < 59 then some { t with minute := t.minute + 1 }
    else addOneHour century { t with minute := 0 }
  | .hour => addOneHour century t

/-- The three states as daylight-saving codes (`30_encoding.md` R73). -/
def dstOfState : DstState → Dst
  | .notInEffect => .notInEffect
  | .inEffect => .inEffect
  | .unknown => .unknown

/-- The domain of the reference instance: fields in range and a day the month has (`42_time_arith.md` R157). -/
def realDate (century : Nat) (t : CalendarTime) : Bool :=
  inRangeCT t && decide (t.day.toNat ≤ daysIn t.month.toNat (calendarYear century t.year))

/-- `TimeAddRef(T, s)`: the fields of `WallAdd` with the dst field of `DstNext` (`42_time_arith.md` R157). -/
def timeAddRef (century : Nat) (dstNext : CalendarTime → Advance → DstState)
    (t : CalendarTime) (a : Advance) : Option CalendarTime :=
  if realDate century t then (wallAdd century t a).map fun r => { r with dst := dstOfState (dstNext t a) }
  else none

/-- The first listed answer to a question, "cannot resolve" when none is listed. -/
def listedAnswer (t : CalendarTime) (a : Advance) : List TaRow → Option CalendarTime
  | [] => none
  | r :: rs => if r.t = t ∧ r.adv = a then r.answer else listedAnswer t a rs

/-- The first listed value of `DstNext`, the OPEN one when none is listed (`42_time_arith.md` R159). -/
def listedDst (t : CalendarTime) (a : Advance) : List DstRow → DstState
  | [] => Config.dstNext t a
  | r :: rs => if r.t = t ∧ r.adv = a then r.dst else listedDst t a rs

/-- `TimeAdd(T, s)` of the instance the block is attached to, `none` for "cannot resolve" (`42_time_arith.md` R150, R153).
A function of its arguments (R152). -/
def timeAdd : Platform → CalendarTime → Advance → Option CalendarTime
  | .external, t, a => Config.timeAdd t a
  | .listed rows, t, a => listedAnswer t a rows
  | .reference century rows, t, a => timeAddRef century (fun x b => listedDst x b rows) t a

end Sys2Proof.Machine
end

