-- ==== Sys2Proof/Machine/Encode.lean ====
section
/-! DEFINITION. The meaning of ENCODE (`41_encode.md`): one definition per field of the frame, the parity cells, the encode
result, and the operation. -/

namespace Sys2Proof.Machine

/-- Position 0, M (`41_encode.md` R115). -/
def groupM : CellGroup := ⟨0, 1, flagZero.toNat⟩
/-- Positions 1 to 14, RSV (`41_encode.md` R116): a group of 14 cells, where `20_memory.md` R57 lists one of 16 (DEDUCED,
log 15). -/
def groupRSV : CellGroup := ⟨1, 14, 0⟩
/-- Position 15, R (`41_encode.md` R117). -/
def groupR : CellGroup := ⟨15, 1, flagZero.toNat⟩
/-- Position 16, A1 (`41_encode.md` R118). -/
def groupA1 (tDst nhDst : Dst) : CellGroup := ⟨16, 1, (flagA1 tDst nhDst).toNat⟩
/-- Position 17, Z1 (`41_encode.md` R119). -/
def groupZ1 (nm : CalendarTime) : CellGroup := ⟨17, 1, (flagZ1 nm.dst).toNat⟩
/-- Position 18, Z2 (`41_encode.md` R120). -/
def groupZ2 (nm : CalendarTime) : CellGroup := ⟨18, 1, (flagZ2 (flagZ1 nm.dst)).toNat⟩
/-- Position 19, A2 (`41_encode.md` R121). -/
def groupA2 : CellGroup := ⟨19, 1, flagZero.toNat⟩
/-- Position 20, S (`41_encode.md` R122). -/
def groupS : CellGroup := ⟨20, 1, flagS.toNat⟩
/-- Positions 21 to 24, MIN_U (`41_encode.md` R125). -/
def groupMinU (nm : CalendarTime) : CellGroup := ⟨21, 4, unitsDigit nm.minute.toNat⟩
/-- Positions 25 to 27, MIN_T (`41_encode.md` R126). -/
def groupMinT (nm : CalendarTime) : CellGroup := ⟨25, 3, tensDigit nm.minute.toNat⟩
/-- Positions 29 to 32, HOUR_U (`41_encode.md` R127). -/
def groupHourU (nm : CalendarTime) : CellGroup := ⟨29, 4, unitsDigit nm.hour.toNat⟩
/-- Positions 33 and 34, HOUR_T (`41_encode.md` R128). -/
def groupHourT (nm : CalendarTime) : CellGroup := ⟨33, 2, tensDigit nm.hour.toNat⟩
/-- Positions 36 to 39, DAY_U (`41_encode.md` R129). -/
def groupDayU (nm : CalendarTime) : CellGroup := ⟨36, 4, unitsDigit nm.day.toNat⟩
/-- Positions 40 and 41, DAY_T (`41_encode.md` R130). -/
def groupDayT (nm : CalendarTime) : CellGroup := ⟨40, 2, tensDigit nm.day.toNat⟩
/-- Positions 42 to 44, WDAY (`41_encode.md` R131). -/
def groupWday (nm : CalendarTime) : CellGroup := ⟨42, 3, (frameWeekday nm.dow).toNat⟩
/-- Positions 45 to 48, MON_U (`41_encode.md` R132). -/
def groupMonU (nm : CalendarTime) : CellGroup := ⟨45, 4, unitsDigit nm.month.toNat⟩
/-- Position 49, MON_T (`41_encode.md` R133). -/
def groupMonT (nm : CalendarTime) : CellGroup := ⟨49, 1, tensDigit nm.month.toNat⟩
/-- Positions 50 to 53, YEAR_U (`41_encode.md` R134). -/
def groupYearU (nm : CalendarTime) : CellGroup := ⟨50, 4, unitsDigit (yearInCentury nm.year)⟩
/-- Positions 54 to 57, YEAR_T (`41_encode.md` R134). -/
def groupYearT (nm : CalendarTime) : CellGroup := ⟨54, 4, tensDigit (yearInCentury nm.year)⟩

/-- The data positions in the order of the pseudocode (`41_encode.md` R110 step 2, R111). -/
def dataGroups (tDst : Dst) (nm : CalendarTime) (nhDst : Dst) : List CellGroup :=
  [groupM, groupRSV, groupR, groupA1 tDst nhDst, groupZ1 nm, groupZ2 nm, groupA2, groupS,
   groupMinU nm, groupMinT nm, groupHourU nm, groupHourT nm, groupDayU nm, groupDayT nm, groupWday nm,
   groupMonU nm, groupMonT nm, groupYearU nm, groupYearT nm]

/-- Position 28, P1: even parity over 21 to 27 (`41_encode.md` R135). -/
def writeP1 (f : Frame) : Frame := setCell f 28 (par f 21 28)
/-- Position 35, P2: even parity over 29 to 34 (`41_encode.md` R135). -/
def writeP2 (f : Frame) : Frame := setCell f 35 (par f 29 35)
/-- Position 58, P3: even parity over 36 to 57 (`41_encode.md` R135, `90_conflicts.md` C1). -/
def writeP3 (f : Frame) : Frame := setCell f 58 (par f 36 58)

/-- `EncodeCore(T.dst, NM, NH.dst)`: every cell of the frame written over whatever it held (`41_encode.md` R110, R114). -/
def encodeCore (old : Frame) (tDst : Dst) (nm : CalendarTime) (nhDst : Dst) : Frame :=
  writeP3 (writeP2 (writeP1 (writeGroups old (dataGroups tDst nm nhDst))))

/-- What an ENCODE leaves once its answers are known: FRAME, then STATUS with the two flags as written, then FRAME_VALID
(`41_encode.md` R110 steps 2 to 4, R137). -/
def finishEncode (tDst : Dst) (nm : CalendarTime) (nhDst : Dst) (s : State) : State :=
  let f := encodeCore s.frame tDst nm nhDst
  completeEncode s f (statusOf nm (getCell f 16) (getCell f 17))

/-- The tests ENCODE makes on the two answers, then its effect (`41_encode.md` R113 (b), (c)). -/
def encodeAnswered (tDst : Dst) (nm nh : Option CalendarTime) (s : State) : Out :=
  match nm, nh with
  | some nm, some nh =>
    if inRangeCT nm && decide (nextHourDst nh ≠ .reserved) then .next (finishEncode tDst nm (nextHourDst nh) s)
    else .refused .invalidCalendarTime
  | some _, none => .refused .timeArithmeticUnresolved
  | none, _ => .refused .timeArithmeticUnresolved

/-- ENCODE (`41_encode.md` R110): T is tested, `TimeAdd` is asked twice with the unmodified T (R112), the answers are
tested, the frame and the status are written. -/
def execEncode (t : CalendarTime) (s : State) : Out :=
  accept s (if inRangeCT t then encodeAnswered t.dst (timeAdd s.platform t .minute) (timeAdd s.platform t .hour) s
            else .refused .invalidCalendarTime)

end Sys2Proof.Machine
end

