-- ==== Sys2Proof/Machine/Parity.lean ====
section
/-! DEFINITION. The meaning of PARITY (`40_parity.md`). -/

namespace Sys2Proof.Machine

/-- What a PARITY leaves: PBIT and PBIT_VALID only (`40_parity.md` R103). -/
def finishParity (pdata : Frame) (plo phi : BitVec 6) (s : State) : State :=
  completeParity s (par pdata plo.toNat phi.toNat)

/-- PARITY (`40_parity.md` R103): refused for an ill-formed range (R104). -/
def execParity (pdata : Frame) (plo phi : BitVec 6) (s : State) : Out :=
  accept s (if legalRange plo phi then .next (finishParity pdata plo phi s) else .refused .illFormedRange)

end Sys2Proof.Machine
end

