-- ==== Sys2Proof/Machine/Clock.lean ====
section
/-! DEFINITION. The block cycle by cycle: one rising edge of `clk` (`10_state.md` R21, R30, `42_time_arith.md` R154,
`70_reset_and_hazards.md` R190, R196, R198). -/

namespace Sys2Proof.Machine

/-- The pins when the host and the platform drive nothing: all strobes 0. -/
def idlePins : Pins :=
  { rst := false, start := false, op := 0, t := .torn, pdata := .torn, plo := .torn, phi := .torn
    taAck := false, taLate := false, taR := .torn }

/-- A late acknowledge, one for a request that a reset abandoned: it counts as an acknowledge without request, also while a
new ENCODE awaits its own answer (`70_reset_and_hazards.md` R190, log 13). -/
def lateAck (p : Pins) : Bool := p.taAck && p.taLate

/-- `left` further edges of a PARITY, the results at the last (`70_reset_and_hazards.md` R204). -/
def workParity (pdata : Frame) (plo phi : BitVec 6) (s : State) : Nat → State
  | 0 => finishParity pdata plo phi s
  | left + 1 => holdParity s pdata plo phi left

/-- `left` further edges of an ENCODE whose answers are held, the results at the last (`70_reset_and_hazards.md` R204). -/
def workEncode (t nm : CalendarTime) (nhDst : Dst) (s : State) : Nat → State
  | 0 => finishEncode t.dst nm nhDst s
  | left + 1 => holdEncode s t (.filling nm nhDst left)

/-- Acceptance of an ENCODE: T is sampled whole and held, the first request follows in the next cycle
(`42_time_arith.md` R154, `70_reset_and_hazards.md` R196, log 5); an illegal T is refused here (log 10). -/
def acceptEncode (p : Pins) (s : State) : Out :=
  match p.t with
  | .torn => .refused .protocolViolation
  | .whole w =>
    if inRangeCT (ctOfWord w) then .next (holdEncode s (ctOfWord w) .request60)
    else .refused .invalidCalendarTime

/-- Acceptance of a PARITY: its three operands are sampled whole and held (`70_reset_and_hazards.md` R196). -/
def acceptParity (p : Pins) (s : State) : Out :=
  match p.pdata, p.plo, p.phi with
  | .whole b, .whole lo, .whole hi =>
    if legalRange lo hi then .next (workParity b lo hi s Config.latParityWork) else .refused .illFormedRange
  | .torn, _, _ => .refused .protocolViolation
  | .whole _, .torn, _ => .refused .protocolViolation
  | .whole _, .whole _, .torn => .refused .protocolViolation

/-- Acceptance of a command: `op` selects the operation, the other format's ports are ignored (`30_encoding.md` R70, R71). -/
def acceptCommand (p : Pins) (s : State) : Out :=
  if p.op = 0 then acceptEncode p s else acceptParity p s

/-- NM arrives on `ta_r` (`42_time_arith.md` R154); every field of it is used (`30_encoding.md` R79). -/
def takeNextMinute (t : CalendarTime) (p : Pins) (s : State) : Out :=
  match p.taR with
  | .torn => .refused .protocolViolation
  | .whole w =>
    if inRangeCT (ctOfWord w) then .next (holdEncode s t (.request3600 (ctOfWord w)))
    else .refused .invalidCalendarTime

/-- NH arrives on `ta_r`; its `dst` field is used and the other 35 bits are ignored (`30_encoding.md` R79). -/
def takeNextHour (t nm : CalendarTime) (p : Pins) (s : State) : Out :=
  match p.taR with
  | .torn => .refused .protocolViolation
  | .whole w =>
    if nextHourDst (ctOfWord w) = .reserved then .refused .invalidCalendarTime
    else .next (workEncode t nm (nextHourDst (ctOfWord w)) s Config.latEncodeWork)

/-- One edge of an ENCODE in progress (`42_time_arith.md` R154): an acknowledge is legal only while an answer is awaited
(log 7), and each request comes in the first cycle after what it waits for (log 5). A late acknowledge
does not come here (`clockEdge`). -/
def advanceEncode (t : CalendarTime) (phase : EncodePhase) (p : Pins) (s : State) : Out :=
  match phase with
  | .request60 => if p.taAck then .refused .protocolViolation else .next (holdEncode s t .wait60)
  | .wait60 => if p.taAck then takeNextMinute t p s else .next (holdEncode s t .wait60)
  | .request3600 nm => if p.taAck then .refused .protocolViolation else .next (holdEncode s t (.wait3600 nm))
  | .wait3600 nm => if p.taAck then takeNextHour t nm p s else .next (holdEncode s t (.wait3600 nm))
  | .filling nm nhDst left =>
    if p.taAck then .refused .protocolViolation else .next (workEncode t nm nhDst s left)

/-- One edge of an operation in progress. -/
def advanceInFlight (f : InFlight) (p : Pins) (s : State) : Out :=
  match f with
  | .encode t phase => advanceEncode t phase p s
  | .parity pdata plo phi left =>
    if p.taAck then .refused .protocolViolation else .next (workParity pdata plo phi s left)

/-- One rising edge of `clk`. `rst` = 1 overrides everything (`60_exceptions.md` R177 (a)); a `start` while busy and an
acknowledge without a request, a late one among them, are protocol violations (`60_exceptions.md` R171); without a command the block does nothing
(`70_reset_and_hazards.md` R191). -/
def clockEdge (p : Pins) (s : State) : Out :=
  if p.rst then .next (resetBlock s)
  else if lateAck p then .refused .protocolViolation
  else match s.inflight with
    | some f => if p.start then .refused .protocolViolation else advanceInFlight f p s
    | none =>
      if p.taAck then .refused .protocolViolation
      else if p.start then acceptCommand p s
      else .next (idleCycle s)

end Sys2Proof.Machine
end

