-- ==== Sys2Proof/Machine/Dispatch.lean ====
section
/-! DEFINITION. One arm per operation. -/

namespace Sys2Proof.Machine

def exec (i : Instr) (s : State) : Host.Outcome State Fault Refusal :=
  match i with
  | .encode t => Sys2Proof.Machine.execEncode t s
  | .parity pdata plo phi => Sys2Proof.Machine.execParity pdata plo phi s

end Sys2Proof.Machine
end

