-- ==== Sys2Proof/Machine/HostRead.lean ====
section
/-! DEFINITION. The host's reads of the output ports (`30_encoding.md` R84, `20_memory.md` R57, R59). -/

namespace Sys2Proof.Machine

/-- FRAME and STATUS may be read: FRAME_VALID is 1 and no ENCODE is in progress (`60_exceptions.md` R171 row
ReadWithoutValue, `70_reset_and_hazards.md` R197, log 8). -/
def frameReadable (s : State) : Bool := s.frameValid && !encodeInFlight s

/-- PBIT may be read: PBIT_VALID is 1 and no PARITY is in progress (`60_exceptions.md` R171). -/
def pbitReadable (s : State) : Bool := s.pbitValid && !parityInFlight s

/-- A read the spec allows leaves `s'`; one it forbids is refused: the spec names this refusal and its causes
(`60_exceptions.md` R171 row ReadWithoutValue, R173; `93_implementation_defined.md` U5, U6). -/
def readGuarded (readable : Bool) (s' : State) : Out :=
  if readable then .next s' else .refused .readWithoutValue

/-- A read of a port whose value is stated in some cycles only: the stated value, else a free one (logs 8, 14). -/
def readPort {α : Type} (stated : Option α) (free : Nat → α) (o : Bool → α → Observation) (s : State) : State :=
  match stated with
  | some v => record s (o true v)
  | none => recordDrawn s (o false (free s.draws))

/-- READ: what a port shows is recorded, nothing else changes (`20_memory.md` R57). -/
def hostRead (r : ReadItem) (s : State) : Out :=
  match r with
  | .frame => readGuarded (frameReadable s) (record s (.frame s.frame))
  | .cells p n =>
    if p + n ≤ 59 then readGuarded (frameReadable s) (record s (.cells p n (memRead s.frame p n)))
    else .fault .noSuchCell
  | .status => readGuarded (frameReadable s) (readPort (statedStatus s) Config.freeStatus .status s)
  | .pbit => readGuarded (pbitReadable s) (record s (.pbit s.pbit))
  | .frameValid => .next (record s (.frameValid s.frameValid))
  | .pbitValid => .next (record s (.pbitValid s.pbitValid))
  | .busy => .next (record s (.busy s.busy))
  | .done => .next (record s (.done s.done))
  | .taRequest => .next (record s (.taRequest (taRequest s)))
  | .taReq => .next (record s (.taReq (taRequest s).isSome))
  | .taSel => .next (readPort (statedTaSel s) Config.freeAdvance .taSel s)
  | .taT => .next (readPort (statedTaT s) Config.freeCtWord .taT s)

end Sys2Proof.Machine
end

