-- ==== Sys2Proof/Machine/Action.lean ====
section
/-! DEFINITION. The actions of the host on the block: RESET, a whole operation, a read, one clock edge. -/

namespace Sys2Proof.Machine

/-- One action of the host on the block (`30_encoding.md` R84). -/
def runAction (a : HostAction) (s : State) : Host.Outcome State Fault Refusal :=
  match a with
  | .reset => .next (resetBlock s)
  | .command c => exec (decode c) s
  | .read r => hostRead r s
  | .clock p => clockEdge p s

end Sys2Proof.Machine
end

