-- ==== Sys2Proof/Machine/Step.lean ====
section
/-! DEFINITION. One step: the host's next action. -/

namespace Sys2Proof.Machine

/-- The host's next action is taken from `script` and run; when there is none, one cycle passes in which nothing is driven
(`70_reset_and_hazards.md` R191). -/
def step (s : State) : Host.Outcome State Fault Refusal :=
  match s.script with
  | [] => clockEdge idlePins s
  | a :: rest => runAction a (setScript s rest)

/-- The operation whose operation word is `w` (operand words 0) is what the host commands next (log 3). -/
def State.withFetchWord (s : State) (nbits w : Nat) : State :=
  setScript s (.command (tablePorts nbits w) :: s.script.tail)

end Sys2Proof.Machine
end

