-- ==== Sys2Proof/Safety.lean ====
section
/-! DEFINITION. The terms claims use: what a legal frame is, what an operation and a host action must meet to have a
meaning, and the invariant of the machine. Each is written from the spec's words over the bits of the frame, not with the
operations that write it. -/

namespace Sys2Proof.Safety

open Sys2Proof.Machine

/-- The number held in the n cells from position p, lowest position least significant (`00_scope.md` R7 MemRead). -/
def field (f : Frame) (p n : Nat) : Nat := (f.extractLsb' p n).toNat

/-- The number of ones in the half-open range `[lo, hi)` of positions (`00_scope.md` R8). -/
def onesIn (f : Frame) (lo hi : Nat) : Nat := (List.range' lo (hi - lo)).countP fun p => f.getLsbD p

/-- Two-digit fields read back with the weights of `30_encoding.md` R76. -/
def minuteOf (f : Frame) : Nat := field f 21 4 + 10 * field f 25 3
def hourOf (f : Frame) : Nat := field f 29 4 + 10 * field f 33 2
def dayOf (f : Frame) : Nat := field f 36 4 + 10 * field f 40 2
def weekdayOf (f : Frame) : Nat := field f 42 3
def monthOf (f : Frame) : Nat := field f 45 4 + 10 * field f 49 1
def yearOf (f : Frame) : Nat := field f 50 4 + 10 * field f 54 4

/-- The 22 rows of the frame format (`30_encoding.md` R75) for given T.dst, NM and NH.dst. -/
structure FrameFormat (f : Frame) (tDst : Dst) (nm : CalendarTime) (nhDst : Dst) : Prop where
  m      : field f 0 1 = 0
  rsv    : field f 1 14 = 0
  r      : field f 15 1 = 0
  a1     : f.getLsbD 16 = true ↔ tDst ≠ nhDst
  z1     : f.getLsbD 17 = true ↔ nm.dst = .inEffect
  z2     : f.getLsbD 18 = !f.getLsbD 17
  a2     : field f 19 1 = 0
  s      : field f 20 1 = 1
  minU   : field f 21 4 = nm.minute.toNat % 10
  minT   : field f 25 3 = nm.minute.toNat / 10
  p1     : f.getLsbD 28 = true ↔ onesIn f 21 28 % 2 = 1
  hourU  : field f 29 4 = nm.hour.toNat % 10
  hourT  : field f 33 2 = nm.hour.toNat / 10
  p2     : f.getLsbD 35 = true ↔ onesIn f 29 35 % 2 = 1
  dayU   : field f 36 4 = nm.day.toNat % 10
  dayT   : field f 40 2 = nm.day.toNat / 10
  wday   : field f 42 3 = if nm.dow = 0 then 7 else nm.dow.toNat
  monU   : field f 45 4 = nm.month.toNat % 10
  monT   : field f 49 1 = nm.month.toNat / 10
  yearU  : field f 50 4 = (nm.year.toNat % 100) % 10
  yearT  : field f 54 4 = (nm.year.toNat % 100) / 10
  p3     : f.getLsbD 58 = true ↔ onesIn f 36 58 % 2 = 1

/-- What every frame of ENCODE satisfies whatever its inputs (`41_encode.md` R136 (a) to (d)). -/
structure FrameShape (f : Frame) : Prop where
  zeros   : ∀ p, p ≤ 15 → f.getLsbD p = false
  a2      : f.getLsbD 19 = false
  s       : f.getLsbD 20 = true
  zone    : f.getLsbD 18 = !f.getLsbD 17
  evenMin  : onesIn f 21 29 % 2 = 0
  evenHour : onesIn f 29 36 % 2 = 0
  evenDate : onesIn f 36 59 % 2 = 0
  minU    : field f 21 4 ≤ 9
  minT    : field f 25 3 ≤ 5
  hourU   : field f 29 4 ≤ 9
  hourT   : field f 33 2 ≤ 2
  dayU    : field f 36 4 ≤ 9
  dayT    : field f 40 2 ≤ 3
  wday    : 1 ≤ field f 42 3
  monU    : field f 45 4 ≤ 9
  monT    : field f 49 1 ≤ 1
  yearU   : field f 50 4 ≤ 9
  yearT   : field f 54 4 ≤ 9

/-- STATUS reports what the frame carries (`10_state.md` R28, `41_encode.md` R137). -/
structure StatusMatches (f : Frame) (st : Status) : Prop where
  minute : minuteOf f = st.minute.toNat
  hour   : hourOf f = st.hour.toNat
  day    : dayOf f = st.day.toNat
  wday   : weekdayOf f = st.wday.toNat
  month  : monthOf f = st.month.toNat
  year   : yearOf f = st.year.toNat % 100
  a1     : f.getLsbD 16 = st.a1
  z1     : f.getLsbD 17 = st.z1

/-- STATUS holds values of a calendar time, the weekday numbered 1 to 7 (`10_state.md` R28). -/
structure StatusLegal (st : Status) : Prop where
  minute : st.minute.toNat ≤ 59
  hour   : st.hour.toNat ≤ 23
  day    : 1 ≤ st.day.toNat ∧ st.day.toNat ≤ 31
  wday   : 1 ≤ st.wday.toNat
  month  : 1 ≤ st.month.toNat ∧ st.month.toNat ≤ 12

/-- ENCODE of T has a meaning in this state, with answers NM and NH (`41_encode.md` R113, `10_state.md` R21). -/
structure EncodeReady (s : State) (t nm nh : CalendarTime) : Prop where
  idle    : s.inflight = none
  time    : inRangeCT t = true
  minute  : timeAdd s.platform t .minute = some nm
  hour    : timeAdd s.platform t .hour = some nh
  legalNM : inRangeCT nm = true
  legalNH : nh.dst ≠ .reserved

/-- PARITY of `[plo, phi)` has a meaning in this state (`40_parity.md` R103, R104, `10_state.md` R21). -/
structure ParityReady (s : State) (plo phi : BitVec 6) : Prop where
  idle    : s.inflight = none
  ordered : plo.toNat ≤ phi.toNat
  inside  : phi.toNat ≤ 59

/-- The operation has a meaning in this state. -/
def CommandKept (s : State) : Instr → Prop
  | .encode t => ∃ nm nh, EncodeReady s t nm nh
  | .parity _ plo phi => ParityReady s plo phi

/-- The read finds a value (`70_reset_and_hazards.md` R197, `20_memory.md` R50). -/
def ReadKept (s : State) : ReadItem → Prop
  | .frame => s.frameValid = true ∧ encodeInFlight s = false
  | .cells p n => p + n ≤ 59 ∧ s.frameValid = true ∧ encodeInFlight s = false
  | .status => s.frameValid = true ∧ encodeInFlight s = false
  | .pbit => s.pbitValid = true ∧ parityInFlight s = false
  | .frameValid => True
  | .pbitValid => True
  | .busy => True
  | .done => True
  | .taRequest => True
  | .taReq => True
  | .taSel => True
  | .taT => True

/-- The operands a command samples are whole and legal (`70_reset_and_hazards.md` R194, R196). -/
def OperandsKept (p : Pins) : Prop :=
  if p.op = 0 then ∃ w, p.t = .whole w ∧ inRangeCT (ctOfWord w) = true
  else ∃ b lo hi, p.pdata = .whole b ∧ p.plo = .whole lo ∧ p.phi = .whole hi ∧ legalRange lo hi = true

/-- A timely acknowledge arrives only while an answer is awaited, whole and legal (`60_exceptions.md` R171, `41_encode.md`
R113 (c)). -/
def AckKept (f : InFlight) (p : Pins) : Prop :=
  match f with
  | .encode _ .wait60 => ∃ w, p.taR = .whole w ∧ inRangeCT (ctOfWord w) = true
  | .encode _ (.wait3600 _) => ∃ w, p.taR = .whole w ∧ (ctOfWord w).dst ≠ .reserved
  | .encode _ .request60 => False
  | .encode _ (.request3600 _) => False
  | .encode _ (.filling _ _ _) => False
  | .parity _ _ _ _ => False

/-- The pins of one cycle keep the protocol (`70_reset_and_hazards.md` R190, R196, R198, `60_exceptions.md` R171,
R177 (a)). -/
def PinsKept (s : State) (p : Pins) : Prop :=
  p.rst = true ∨ (p.taAck = true → p.taLate = false) ∧
  match s.inflight with
  | none => p.taAck = false ∧ (p.start = true → OperandsKept p)
  | some f => p.start = false ∧ (p.taAck = true → AckKept f p)

/-- The host keeps, in its next action, the obligations the block can see (`60_exceptions.md` R174, logs 12, 13). -/
def HostKept (s : State) : Prop :=
  match s.script with
  | [] => True
  | .reset :: _ => True
  | .command c :: _ => CommandKept s (decode c)
  | .read r :: _ => ReadKept s r
  | .clock p :: _ => PinsKept s p

/-- What is held of an operation in progress passed the tests of its acceptance and of its answers. -/
def InFlightLegal : InFlight → Prop
  | .encode t .request60 => inRangeCT t = true
  | .encode t .wait60 => inRangeCT t = true
  | .encode t (.request3600 nm) => inRangeCT t = true ∧ inRangeCT nm = true
  | .encode t (.wait3600 nm) => inRangeCT t = true ∧ inRangeCT nm = true
  | .encode t (.filling nm nhDst _) => inRangeCT t = true ∧ inRangeCT nm = true ∧ nhDst ≠ .reserved
  | .parity _ plo phi _ => legalRange plo phi = true

/-- What the host has read could have been produced by the block. -/
def ObservationLegal : Observation → Prop
  | .frame f => FrameShape f
  | .cells p n v => p + n ≤ 59 ∧ v < 2 ^ n
  | .status stated st => stated = true → StatusLegal st
  | .pbit _ => True
  | .frameValid _ => True
  | .pbitValid _ => True
  | .busy _ => True
  | .done _ => True
  | .taRequest r => ∀ a w, r = some (a, w) → inRangeCT (ctOfWord w) = true
  | .taReq _ => True
  | .taSel _ _ => True
  | .taT stated w => stated = true → inRangeCT (ctOfWord w) = true

/-- The invariant: a frame the host may read is a legal frame that STATUS reports, an operation in progress holds legal
operands and answers, `done` and BUSY are never 1 together, and everything the host has read is legal. -/
structure Inv (s : State) : Prop where
  frame  : s.frameValid = true → encodeInFlight s = false →
    FrameShape s.frame ∧ StatusMatches s.frame s.status ∧ StatusLegal s.status
  flight : ∀ f, s.inflight = some f → InFlightLegal f
  strobe : s.done = true → s.inflight = none
  seen   : ∀ o, o ∈ s.seen → ObservationLegal o

/-- The next action resets the block (`70_reset_and_hazards.md` R190). -/
def Resets (s : State) : Prop :=
  (∃ rest, s.script = .reset :: rest) ∨ ∃ p rest, s.script = .clock p :: rest ∧ p.rst = true

/-- The next action is, or advances, an ENCODE: an ENCODE command, a clock edge that accepts one, or any clock edge (also
the idle one of an empty script) while one is in progress. -/
def Encodes (s : State) : Prop :=
  (∃ c rest t, s.script = .command c :: rest ∧ decode c = .encode t) ∨
  (∃ p rest, s.script = .clock p :: rest ∧ p.start = true ∧ p.op = 0) ∨
  encodeInFlight s = true

/-- The next action is, or advances, a PARITY. -/
def Parities (s : State) : Prop :=
  (∃ c rest b lo hi, s.script = .command c :: rest ∧ decode c = .parity b lo hi) ∨
  (∃ p rest, s.script = .clock p :: rest ∧ p.start = true ∧ p.op = 1) ∨
  parityInFlight s = true

/-- The date and weekday the frame carries are those of `t` (`30_encoding.md` R76, R77). -/
structure SameDate (f : Frame) (t : CalendarTime) : Prop where
  day   : dayOf f = t.day.toNat
  wday  : weekdayOf f = if t.dow = 0 then 7 else t.dow.toNat
  month : monthOf f = t.month.toNat
  year  : yearOf f = t.year.toNat % 100

/-- The operation answers with PBIT = `v` and PBIT_VALID = 1 (`40_parity.md` R103). -/
def LeavesParity (o : Out) (v : Bool) : Prop := ∃ t, o = .next t ∧ t.pbit = v ∧ t.pbitValid = true

/-- `k` steps, stopping at the first fault or refusal: the run of the host's interface (Host.Core.run) on this machine. -/
def steps : Nat → State → Host.Outcome State Fault Refusal
  | 0, s => .next s
  | k + 1, s =>
    match step s with
    | .next s' => steps k s'
    | .fault r => .fault r
    | .refused r => .refused r

/-- The pins of a cycle that commands ENCODE of the CT word `w`. -/
def encodePins (w : CtWord) : Pins := { idlePins with start := true, op := 0, t := .whole w }

/-- The pins of a cycle that commands PARITY. -/
def parityPins (b : Frame) (lo hi : BitVec 6) : Pins :=
  { idlePins with start := true, op := 1, pdata := .whole b, plo := .whole lo, phi := .whole hi }

/-- The pins of a cycle in which the primitive answers `w`. -/
def answerPins (w : CtWord) : Pins := { idlePins with taAck := true, taR := .whole w }

/-- The cycles of one ENCODE: command, first request, `d1` cycles of waiting, the answer NM, second request, `d2` cycles of
waiting, the answer NH, and the open number of working cycles (`42_time_arith.md` R154, `70_reset_and_hazards.md` R204). -/
def encodeCycles (t nm nh : CtWord) (d1 d2 : Nat) : List HostAction :=
  .clock (encodePins t) :: .clock idlePins :: List.replicate d1 (.clock idlePins) ++
  .clock (answerPins nm) :: .clock idlePins :: List.replicate d2 (.clock idlePins) ++
  .clock (answerPins nh) :: List.replicate Config.latEncodeWork (.clock idlePins)

/-- The cycles of one PARITY: command and the open number of working cycles. -/
def parityCycles (b : Frame) (lo hi : BitVec 6) : List HostAction :=
  .clock (parityPins b lo hi) :: List.replicate Config.latParityWork (.clock idlePins)

end Sys2Proof.Safety
end

