-- ==== Sys2Proof/Certificates/Slice0/Obligations.lean ====
section
/-! DEFINITION. The statements about the model, from the numbered rules of the spec. -/

open Sys2Proof Sys2Proof.Machine Sys2Proof.Safety

/-! ## Encodings -/

/-- Decode and encode agree for every operation and every operand value, legal or not (`30_encoding.md` sections 1, 4). -/
def Obligations.DecodeOfEncodeIsTheOperation : Prop := ∀ i : Instr, decode (encode i) = i

/-- Encode and decode agree on the ports of the selected format; the other format's ports are ignored
(`30_encoding.md` R70, R71). -/
def Obligations.PortsOfTheSelectedFormatDecide : Prop :=
  ∀ c : CommandPorts,
    (c.op = 0 → encode (decode c) = { c with pdata := 0, plo := 0, phi := 0 } ∧ decode c = .encode (ctOfWord c.t)) ∧
    (c.op = 1 → encode (decode c) = { c with t := 0 } ∧ decode c = .parity c.pdata c.plo c.phi)

/-- The CT word is the weighted sum of its fields with the bit positions of the table (`30_encoding.md` section 1, R72), and
the dst codes are those of R73. -/
def Obligations.CtWordIsTheWeightedSumOfItsFields : Prop :=
  (∀ t : CalendarTime, (wordOfCt t).toNat =
    t.minute.toNat + t.hour.toNat * 2 ^ 6 + t.day.toNat * 2 ^ 11 + t.dow.toNat * 2 ^ 16 + t.month.toNat * 2 ^ 19 +
      t.year.toNat * 2 ^ 23 + (bitsOfDst t.dst).toNat * 2 ^ 35) ∧
  (∀ w : CtWord, wordOfCt (ctOfWord w) = w) ∧
  dstOfBits 0 = .notInEffect ∧ dstOfBits 1 = .inEffect ∧ dstOfBits 2 = .unknown ∧ dstOfBits 3 = .reserved

/-- Words written out in the spec (`95_test_vectors.md` V-A, V-D, part 3, part 4) decode to the operations they stand for. -/
def Obligations.WordsOfTheSpecDecode : Prop :=
  decode ⟨0, 0x03F418F87B, 0, 0, 0⟩ = .encode ⟨59, 1, 31, 0, 3, 2024, .notInEffect⟩ ∧
  decode ⟨0, 0x0BF4367B00, 0, 0, 0⟩ = .encode ⟨0, 12, 15, 6, 6, 2024, .inEffect⟩ ∧
  decode ⟨0, 0x1BF4367B00, 0, 0, 0⟩ = .encode ⟨0, 12, 15, 6, 6, 2024, .reserved⟩ ∧
  decode ⟨1, 0, 0x0907F1840130000, 21, 29⟩ = .chkMin 0x0907F1840130000

/-- The range predicates are the legal values of the spec, field by field (`30_encoding.md` section 4, R78;
`92_eei_decisions.md` D28). -/
def Obligations.LegalOperandValues : Prop :=
  (∀ x : CalendarTime, inRangeCT x = true ↔
    x.minute.toNat ≤ 59 ∧ x.hour.toNat ≤ 23 ∧ 1 ≤ x.day.toNat ∧ x.day.toNat ≤ 31 ∧ x.dow.toNat ≤ 6 ∧
      1 ≤ x.month.toNat ∧ x.month.toNat ≤ 12 ∧ x.dst ≠ .reserved) ∧
  (∀ lo hi : BitVec 6, legalRange lo hi = true ↔ lo.toNat ≤ hi.toNat ∧ hi.toNat ≤ 59)

/-! ## The step -/

/-- A step runs the commanded operation: when the host's next action commands the ports `c`, the step is `exec` of what `c`
decodes to, the action being consumed (the model's form of fetching, log 3). -/
def Obligations.StepRunsTheCommandedOperation : Prop :=
  ∀ (s : State) (c : CommandPorts) (rest : List HostAction), s.script = .command c :: rest →
    step s = exec (decode c) { s with script := rest }

/-- A placed operation word is what the very next step runs (log 3). -/
def Obligations.PlacedWordIsTheNextOperation : Prop :=
  ∀ (s : State) (nbits w : Nat) (i : Instr), decodeTableWord nbits w = some i →
    step (s.withFetchWord nbits w) = exec i { s with script := s.script.tail }

/-- Reset, as a host action and as a clock edge with `rst` = 1 whatever the other pins carry and whatever is in progress:
the valid flags, BUSY, `done` and `ta_req` are 0, and nothing around the block changes (`70_reset_and_hazards.md` section 1,
`60_exceptions.md` R177 (a)). -/
def Obligations.ResetClearsFlagsAndAbandonsTheOperation : Prop :=
  ∀ (s : State) (a : HostAction) (rest : List HostAction), s.script = a :: rest →
    (a = .reset ∨ ∃ p, a = .clock p ∧ p.rst = true) →
    ∃ t, step s = .next t ∧ t.frameValid = false ∧ t.pbitValid = false ∧ t.busy = false ∧ t.done = false ∧
      taRequest t = none ∧ t.platform = s.platform ∧ t.script = rest ∧ t.seen = s.seen

/-- The state after reset: the values of `10_state.md` section 7 and nothing that the spec leaves without a value. -/
def Obligations.ResetStateHasTheStatedValues : Prop :=
  State.reset.frameValid = false ∧ State.reset.pbitValid = false ∧ State.reset.busy = false ∧
  State.reset.inflight = none ∧ State.reset.done = false ∧ taRequest State.reset = none

/-- Without a command the block does nothing: when the host drives nothing and nothing is in progress, only `done` falls
(`70_reset_and_hazards.md` section 1, `10_state.md` section 1). -/
def Obligations.NothingHappensWithoutACommand : Prop :=
  ∀ s : State, s.inflight = none →
    (s.script = [] → step s = .next { s with done := false }) ∧
    (∀ p rest, s.script = .clock p :: rest → p.rst = false → p.start = false → p.taAck = false →
      step s = .next { s with script := rest, done := false })

/-- A step faults only on a host read of a position the frame does not have; no operation faults (`60_exceptions.md`
section 1, `20_memory.md` section 1). -/
def Obligations.OnlyAReadBeyondTheFrameFaults : Prop :=
  (∀ (i : Instr) (s : State) (r : Fault), exec i s ≠ .fault r) ∧
  (∀ (s : State) (r : Fault), step s = .fault r ↔
    r = .noSuchCell ∧ ∃ p n rest, s.script = .read (.cells p n) :: rest ∧ 59 < p + n)

/-- A step has a next state exactly when the host keeps, in its next action, the obligations the block can see in this cycle
(`60_exceptions.md` sections 1, 3; `70_reset_and_hazards.md` sections 1, 3). Obligations that no cycle shows, those of R194,
R199 and R200, are not among them (logs 10, 12): a host may break one and still get a next state. `HostKept` includes choices
of the model: an empty script is an idle cycle (log 3), a read of zero cells is inside the frame (log 4), an acknowledge in its
request cycle breaks the protocol (log 7), STATUS may be read during a PARITY (log 8), illegal operands and answers break it at
acceptance and at the acknowledge (log 10), a torn port is a mark without a value (log 11), and a late acknowledge is one that
carries the mark `taLate` (log 13). -/
def Obligations.StepAnswersExactlyWhenTheHostKeepsItsObligations : Prop :=
  ∀ s : State, (∃ t, step s = .next t) ↔ HostKept s

/-! ## Host reads -/

/-- A read that answers records what the port shows and changes nothing else (`20_memory.md` section 4, R57). That it leaves
`done` as it is rests on a read taking no cycle (log 6); `script` and `seen` are the model's own fields (log 3); a free value is
drawn only where the spec states none on `st_*`, `ta_sel` or `ta_t` (logs 8, 14), and `ta_t` always shows the T of the ENCODE in
progress (`10_state.md` section 1). -/
def Obligations.ReadRecordsAndChangesNothingElse : Prop :=
  ∀ (s t : State) (r : ReadItem) (rest : List HostAction), s.script = .read r :: rest → step s = .next t →
    ∃ o, t = { s with script := rest, seen := o :: s.seen, draws := t.draws } ∧
      (t.draws = s.draws ∨ (r = .status ∧ s.busy = true) ∨ (r = .taSel ∧ taRequest s = none) ∨
        (r = .taT ∧ encodeInFlight s = false)) ∧
      (r = .frame → o = .frame s.frame) ∧ (r = .pbit → o = .pbit s.pbit) ∧
      (r = .status → s.busy = false → o = .status true s.status) ∧
      (r = .status → s.busy = true → ∃ st, o = .status false st) ∧
      (∀ p n, r = .cells p n → o = .cells p n (field s.frame p n)) ∧
      (r = .frameValid → o = .frameValid s.frameValid) ∧ (r = .pbitValid → o = .pbitValid s.pbitValid) ∧
      (r = .busy → o = .busy s.busy) ∧ (r = .done → o = .done s.done) ∧ (r = .taRequest → o = .taRequest (taRequest s)) ∧
      (r = .taReq → o = .taReq (taRequest s).isSome) ∧
      (r = .taSel → ∀ a w, taRequest s = some (a, w) → o = .taSel true a) ∧
      (r = .taSel → taRequest s = none → ∃ a, o = .taSel false a) ∧
      (r = .taT → ∀ time phase, s.inflight = some (.encode time phase) → o = .taT true (wordOfCt time)) ∧
      (r = .taT → encodeInFlight s = false → ∃ w, o = .taT false w)

/-- FRAME and STATUS are readable exactly when FRAME_VALID is 1 and no ENCODE is in progress, PBIT exactly when PBIT_VALID
is 1 and no PARITY is in progress; otherwise the read is refused (`60_exceptions.md` R171 row ReadWithoutValue, R173,
`70_reset_and_hazards.md` R197). That a read of STATUS while a PARITY is in progress answers, with a free value, is the
model's reading of `10_state.md` R28 beside these rules (log 8). -/
def Obligations.ReadWithoutValueIsRefused : Prop :=
  ∀ s : State,
    ((s.frameValid = true ∧ encodeInFlight s = false → (∃ t, hostRead .frame s = .next t) ∧
        (∃ t, hostRead .status s = .next t) ∧ ∀ p n, p + n ≤ 59 → ∃ t, hostRead (.cells p n) s = .next t) ∧
     (s.frameValid = false ∨ encodeInFlight s = true → hostRead .frame s = .refused .readWithoutValue ∧
        hostRead .status s = .refused .readWithoutValue ∧
        ∀ p n, p + n ≤ 59 → hostRead (.cells p n) s = .refused .readWithoutValue)) ∧
    ((s.pbitValid = true ∧ parityInFlight s = false → ∃ t, hostRead .pbit s = .next t) ∧
     (s.pbitValid = false ∨ parityInFlight s = true → hostRead .pbit s = .refused .readWithoutValue))

/-! ## Cells and the parity function -/

/-- `MemWrite` lays a number out least significant bit first in ascending cells, writes no other cell, and `MemRead` gives
the number back (`20_memory.md` section 2; `00_scope.md` section 5). -/
def Obligations.CellsCarryTheLeastSignificantBitFirst : Prop :=
  ∀ (f : Frame) (p n v : Nat), p + n ≤ 59 →
    (∀ k, k < n → getCell (memWrite f p n v) (p + k) = v.testBit k) ∧
    (∀ q, q < p ∨ p + n ≤ q → getCell (memWrite f p n v) q = getCell f q) ∧
    memRead (memWrite f p n v) p n = v % 2 ^ n

/-- `40_parity.md` R102, laws (a) to (f). -/
def Obligations.ParityLaws : Prop :=
  (∀ b p, p ≤ 59 → par b p p = false) ∧
  (∀ b p, p ≤ 58 → par b p (p + 1) = b.getLsbD p) ∧
  (∀ b lo mid hi, lo ≤ mid → mid ≤ hi → hi ≤ 59 → par b lo hi = (par b lo mid ^^ par b mid hi)) ∧
  (∀ b p lo hi, lo ≤ hi → hi ≤ 59 → p < 59 →
    par (setCell b p (!b.getLsbD p)) lo hi = if lo ≤ p ∧ p < hi then !par b lo hi else par b lo hi) ∧
  (∀ b lo hi, lo ≤ hi → hi ≤ 59 → (∀ p, lo ≤ p → p < hi → b.getLsbD p = false) → par b lo hi = false) ∧
  (∀ b lo hi, lo ≤ hi → hi ≤ 59 → (∀ p, lo ≤ p → p < hi → b.getLsbD p = true) →
    par b lo hi = decide ((hi - lo) % 2 = 1)) ∧
  (∀ b lo hi, lo ≤ hi → hi ≤ 59 → (par b lo hi).toNat = onesIn b lo hi % 2) ∧
  (∀ b lo hi, lo ≤ hi → hi ≤ 59 → onesFrom b lo (hi - lo) ≤ 59 ∧ (par b lo hi).toNat ≤ 1)

/-- `40_parity.md` R101: the ones of the range plus the returned bit are even, and a vector that equals B on the range and
holds the returned bit at `hi` has parity 0 over the longer range. -/
def Obligations.RangeWithItsParityIsEven : Prop :=
  ∀ (b : Frame) (lo hi : Nat), lo ≤ hi → hi ≤ 59 →
    (onesIn b lo hi + (par b lo hi).toNat) % 2 = 0 ∧
    ∀ c : Frame, hi ≤ 58 → (∀ p, lo ≤ p → p < hi → c.getLsbD p = b.getLsbD p) → c.getLsbD hi = par b lo hi →
      par c lo (hi + 1) = false

/-- `40_parity.md` R100: the parity function is 1 exactly for an odd number of ones, equals the exclusive-or of the cells,
depends on no cell outside the range, and gives 1 on the document's example 1, 0, 1, 1. -/
def Obligations.ParityIsTheExclusiveOrOfTheRange : Prop :=
  (∀ (b : Frame) (lo hi : Nat), lo ≤ hi → hi ≤ 59 →
    (par b lo hi = true ↔ onesIn b lo hi % 2 = 1) ∧
    par b lo hi = (List.range' lo (hi - lo)).foldl (fun x p => x ^^ b.getLsbD p) false ∧
    ∀ c : Frame, (∀ p, lo ≤ p → p < hi → c.getLsbD p = b.getLsbD p) → par c lo hi = par b lo hi) ∧
  par 0x00000000000000D 0 4 = true

/-! ## PARITY -/

/-- PARITY completes for every vector and every legal range, the empty one among them, and writes PBIT and PBIT_VALID only
(`40_parity.md` section 2): the whole next state is given, `done` = 1 being the completion strobe of `10_state.md` R21
(log 6). -/
def Obligations.ParityCompletesWithTheRangeParity : Prop :=
  ∀ (s : State) (b : Frame) (lo hi : BitVec 6), ParityReady s lo hi →
    exec (.parity b lo hi) s =
      .next { s with pbit := decide (onesIn b lo.toNat hi.toNat % 2 = 1), pbitValid := true, done := true }

/-- PARITY of an ill-formed range is refused by name, whatever the vector (`40_parity.md` section 2, R104). -/
def Obligations.ParityRefusesAnIllFormedRange : Prop :=
  ∀ (s : State) (b : Frame) (lo hi : BitVec 6), s.inflight = none → hi.toNat < lo.toNat ∨ 59 < hi.toNat →
    exec (.parity b lo hi) s = .refused .illFormedRange

/-! ## ENCODE -/

/-- `41_encode.md` R113: ENCODE has a meaning exactly when T is in range, both answers resolve, NM is in range and NH.dst is
not the reserved value; otherwise it is refused. -/
def Obligations.EncodeHasMeaningExactlyOnItsDomain : Prop :=
  ∀ (s : State) (t : CalendarTime), s.inflight = none →
    ((∃ s', exec (.encode t) s = .next s') ↔
      inRangeCT t = true ∧ ∃ nm nh, timeAdd s.platform t .minute = some nm ∧ timeAdd s.platform t .hour = some nh ∧
        inRangeCT nm = true ∧ nh.dst ≠ .reserved) ∧
    ((∀ s', exec (.encode t) s ≠ .next s') → ∃ r, exec (.encode t) s = .refused r)

/-- ENCODE completes and every one of the 22 fields of the frame has the value of the frame format (`30_encoding.md` R75). -/
def Obligations.EncodeWritesTheFrameFormat : Prop :=
  ∀ (s : State) (t nm nh : CalendarTime), EncodeReady s t nm nh →
    ∃ s', exec (.encode t) s = .next s' ∧ FrameFormat s'.frame t.dst nm nh.dst

/-- `41_encode.md` R136: (a) to (d) the shape of the frame, (e) reading the fields back, (f) the frame depends on T only
through T.dst and the answers. -/
def Obligations.EveryEncodedFrameKeepsItsInvariants : Prop :=
  (∀ (s s' : State) (t nm nh : CalendarTime), EncodeReady s t nm nh → exec (.encode t) s = .next s' →
    FrameShape s'.frame ∧ s'.frame.getLsbD 17 ≠ s'.frame.getLsbD 18 ∧
    par s'.frame 21 29 = false ∧ par s'.frame 29 36 = false ∧ par s'.frame 36 59 = false ∧
    weekdayOf s'.frame ≤ 7 ∧
    minuteOf s'.frame = nm.minute.toNat ∧ hourOf s'.frame = nm.hour.toNat ∧ dayOf s'.frame = nm.day.toNat ∧
    weekdayOf s'.frame = (if nm.dow = 0 then 7 else nm.dow.toNat) ∧ monthOf s'.frame = nm.month.toNat ∧
    yearOf s'.frame = nm.year.toNat % 100) ∧
  (∀ (s₁ s₂ s₁' s₂' : State) (t₁ t₂ nm nh₁ nh₂ : CalendarTime), EncodeReady s₁ t₁ nm nh₁ → EncodeReady s₂ t₂ nm nh₂ →
    t₁.dst = t₂.dst → nh₁.dst = nh₂.dst → exec (.encode t₁) s₁ = .next s₁' → exec (.encode t₂) s₂ = .next s₂' →
    s₁'.frame = s₂'.frame)

/-- Positions 0 to 15 and 19 are 0 for every input (`41_encode.md` R115, R116, R117, R121, `30_encoding.md` R80). -/
def Obligations.ReservedAndFaultAndLeapCellsAreZero : Prop :=
  ∀ (s s' : State) (t : CalendarTime), exec (.encode t) s = .next s' →
    s'.frame.getLsbD 0 = false ∧ (∀ p, 1 ≤ p → p ≤ 14 → s'.frame.getLsbD p = false) ∧
    s'.frame.getLsbD 15 = false ∧ s'.frame.getLsbD 19 = false

/-- `41_encode.md` R122: position 20 is 1 for every input, it is the only such cell, and no frame is all-zero. -/
def Obligations.StartMarkerIsTheOnlyCellAlwaysOne : Prop :=
  (∀ (s s' : State) (t : CalendarTime), exec (.encode t) s = .next s' →
    s'.frame.getLsbD 20 = true ∧ s'.frame ≠ 0) ∧
  (∀ p, p < 59 → p ≠ 20 → ∃ (s s' : State) (t : CalendarTime), exec (.encode t) s = .next s' ∧
    s'.frame.getLsbD p = false)

/-- `41_encode.md` R118: position 16 is the inequality of T.dst and NH.dst as they stand, whatever NM is; equal states, two
unknown ones among them, give 0, and an unknown one against a known one gives 1. -/
def Obligations.AnnouncementComparesNowWithNextHour : Prop :=
  ∀ (s : State) (t nm nh : CalendarTime), EncodeReady s t nm nh →
    ∃ s', exec (.encode t) s = .next s' ∧ (s'.frame.getLsbD 16 = true ↔ t.dst ≠ nh.dst)

/-- Positions 17 and 18 follow the daylight-saving state of NM, not of T or NH, and are complementary
(`41_encode.md` R119, R120). -/
def Obligations.ZoneCellsFollowTheNextMinute : Prop :=
  ∀ (s : State) (t nm nh : CalendarTime), EncodeReady s t nm nh →
    ∃ s', exec (.encode t) s = .next s' ∧ (s'.frame.getLsbD 17 = true ↔ nm.dst = .inEffect) ∧
      (s'.frame.getLsbD 18 = true ↔ nm.dst ≠ .inEffect)

/-- Around a change of state at minute `x` (state `a` before it, `b` from it on), position 16 is 1 for the 60 values of T
from x - 60 to x - 1 and 0 elsewhere, and position 17 follows the state of the minute after T (`41_encode.md` section 2,
R123; minutes counted on any line of 60-minute hours). -/
def Obligations.AnnouncementLastsTheHourBeforeAChange : Prop :=
  ∀ (s : State) (t nm nh : CalendarTime) (k x : Nat) (a b : Dst), EncodeReady s t nm nh → a ≠ b →
    t.dst = (if k < x then a else b) → nm.dst = (if k + 1 < x then a else b) →
    nh.dst = (if k + 60 < x then a else b) →
    ∃ s', exec (.encode t) s = .next s' ∧ (s'.frame.getLsbD 16 = true ↔ k < x ∧ x ≤ k + 60) ∧
      (s'.frame.getLsbD 17 = true ↔ (if x ≤ k + 1 then b else a) = .inEffect)

/-- The six named uses of PARITY (`30_encoding.md` R85). On any vector each gives 0 exactly when its range holds an even
number of ones; on a frame an ENCODE left, PAR gives the value written to the parity cell and CHK gives 0. -/
def Obligations.PseudoOperationsUseTheirRanges : Prop :=
  (∀ (s : State) (b : Frame), s.inflight = none →
    LeavesParity (exec (.parMin b) s) (decide (onesIn b 21 28 % 2 ≠ 0)) ∧
    LeavesParity (exec (.parHour b) s) (decide (onesIn b 29 35 % 2 ≠ 0)) ∧
    LeavesParity (exec (.parDate b) s) (decide (onesIn b 36 58 % 2 ≠ 0)) ∧
    LeavesParity (exec (.chkMin b) s) (decide (onesIn b 21 29 % 2 ≠ 0)) ∧
    LeavesParity (exec (.chkHour b) s) (decide (onesIn b 29 36 % 2 ≠ 0)) ∧
    LeavesParity (exec (.chkDate b) s) (decide (onesIn b 36 59 % 2 ≠ 0))) ∧
  (∀ (s s' : State) (t : CalendarTime), exec (.encode t) s = .next s' →
    LeavesParity (exec (.parMin s'.frame) s') (s'.frame.getLsbD 28) ∧
    LeavesParity (exec (.parHour s'.frame) s') (s'.frame.getLsbD 35) ∧
    LeavesParity (exec (.parDate s'.frame) s') (s'.frame.getLsbD 58) ∧
    LeavesParity (exec (.chkMin s'.frame) s') false ∧
    LeavesParity (exec (.chkHour s'.frame) s') false ∧
    LeavesParity (exec (.chkDate s'.frame) s') false)

/-- `41_encode.md` R137: the eight fields of STATUS after an ENCODE. -/
def Obligations.StatusReportsTheEncodedMinute : Prop :=
  ∀ (s : State) (t nm nh : CalendarTime), EncodeReady s t nm nh →
    ∃ s', exec (.encode t) s = .next s' ∧
      s'.status = { year := nm.year, month := nm.month, day := nm.day, wday := if nm.dow = 0 then 7 else nm.dow,
                    hour := nm.hour, minute := nm.minute, a1 := s'.frame.getLsbD 16, z1 := s'.frame.getLsbD 17 }

/-- The frame of ENCODE: registers of PARITY and everything around the block stay as they were (`41_encode.md` section 1). -/
def Obligations.EncodeChangesOnlyItsResults : Prop :=
  ∀ (s s' : State) (t : CalendarTime), exec (.encode t) s = .next s' →
    s' = { s with frame := s'.frame, status := s'.status, frameValid := true, done := true } ∧
    s'.pbit = s.pbit ∧ s'.pbitValid = s.pbitValid ∧ s'.busy = false

/-- `10_state.md` R37: the results do not depend on what FRAME, STATUS, PBIT or the valid flags held before; the same T with
the same answers gives the same FRAME and STATUS whatever the two states held. -/
def Obligations.ResultsAreIndependentOfPriorState : Prop :=
  (∀ (s₁ s₂ s₁' : State) (t : CalendarTime), s₁.inflight = none → s₂.inflight = none →
    timeAdd s₁.platform t .minute = timeAdd s₂.platform t .minute →
    timeAdd s₁.platform t .hour = timeAdd s₂.platform t .hour → exec (.encode t) s₁ = .next s₁' →
    ∃ s₂', exec (.encode t) s₂ = .next s₂' ∧ s₂'.frame = s₁'.frame ∧ s₂'.status = s₁'.status) ∧
  (∀ (s₁ s₂ s₁' : State) (b : Frame) (lo hi : BitVec 6), s₁.inflight = none → s₂.inflight = none →
    exec (.parity b lo hi) s₁ = .next s₁' → ∃ s₂', exec (.parity b lo hi) s₂ = .next s₂' ∧ s₂'.pbit = s₁'.pbit)

/-- The groups an ENCODE writes and the three parity cells are the 59 positions, each exactly once; each parity cell holds
the parity of the cells it covers as the finished frame holds them; and no cell of an earlier frame reaches the new one (`20_memory.md` R58, `41_encode.md` R135). -/
def Obligations.EachCellIsWrittenExactlyOnce : Prop :=
  ∀ (old old' : Frame) (a b : Dst) (nm : CalendarTime),
    (((dataGroups a nm b).flatMap fun g : CellGroup => List.range' g.pos g.width) ++ [28, 35, 58]).Perm (List.range 59) ∧
    (encodeCore old a nm b).getLsbD 28 = par (encodeCore old a nm b) 21 28 ∧
    (encodeCore old a nm b).getLsbD 35 = par (encodeCore old a nm b) 29 35 ∧
    (encodeCore old a nm b).getLsbD 58 = par (encodeCore old a nm b) 36 58 ∧
    encodeCore old a nm b = encodeCore old' a nm b

/-- Every refused operation has one of the causes of `60_exceptions.md` R171 that the block can see, and every one of those
refuses. An unnormalised or inconsistent T with legal fields, which R171 also lists, is not among them: the model does not
check it (log 10, `92_eei_decisions.md` D17). -/
def Obligations.RefusalsHaveTheirCause : Prop :=
  (∀ (s : State) (t : CalendarTime) (r : Refusal), exec (.encode t) s = .refused r ↔
    (s.busy = true ∧ r = .protocolViolation) ∨
    (s.busy = false ∧ inRangeCT t = false ∧ r = .invalidCalendarTime) ∨
    (s.busy = false ∧ inRangeCT t = true ∧ r = .timeArithmeticUnresolved ∧
      (timeAdd s.platform t .minute = none ∨ timeAdd s.platform t .hour = none)) ∨
    (s.busy = false ∧ inRangeCT t = true ∧ r = .invalidCalendarTime ∧
      ∃ nm nh, timeAdd s.platform t .minute = some nm ∧ timeAdd s.platform t .hour = some nh ∧
        (inRangeCT nm = false ∨ nh.dst = .reserved))) ∧
  (∀ (s : State) (b : Frame) (lo hi : BitVec 6) (r : Refusal), exec (.parity b lo hi) s = .refused r ↔
    (s.busy = true ∧ r = .protocolViolation) ∨
    (s.busy = false ∧ (hi.toNat < lo.toNat ∨ 59 < hi.toNat) ∧ r = .illFormedRange))

/-! ## The block cycle by cycle -/

/-- A command while busy, an acknowledge without a pending request, a late acknowledge for a request that a reset abandoned
whatever the block now awaits, and a torn operand or answer in its sampling cycle are protocol violations
(`60_exceptions.md` R171 row ProtocolViolation, R177 (c); `70_reset_and_hazards.md` sections 1, 3). That the acknowledge
carries a mark of being late is the model's form (log 13). -/
def Obligations.ProtocolViolationsAreRefused : Prop :=
  ∀ (s : State) (p : Pins), p.rst = false →
    (s.busy = true → p.start = true → clockEdge p s = .refused .protocolViolation) ∧
    (s.busy = true → ∀ i, exec i s = .refused .protocolViolation) ∧
    (p.taAck = true → (∀ t nm, s.inflight ≠ some (.encode t .wait60) ∧ s.inflight ≠ some (.encode t (.wait3600 nm))) →
      clockEdge p s = .refused .protocolViolation) ∧
    (p.taAck = true → p.taLate = true → clockEdge p s = .refused .protocolViolation) ∧
    (s.busy = false → p.taAck = false → p.start = true →
      (p.op = 0 ∧ p.t = .torn ∨ p.op = 1 ∧ (p.pdata = .torn ∨ p.plo = .torn ∨ p.phi = .torn)) →
      clockEdge p s = .refused .protocolViolation) ∧
    (p.taAck = true → p.start = false → p.taR = .torn →
      (∃ t nm, s.inflight = some (.encode t .wait60) ∨ s.inflight = some (.encode t (.wait3600 nm))) →
      clockEdge p s = .refused .protocolViolation)

/-- Operands are sampled once: after acceptance, and without a command, the operand ports and `op` change nothing; at
acceptance the ports outside the selected format change nothing (`20_memory.md` section 10, R66; `30_encoding.md` R71). -/
def Obligations.OperandPortsMatterOnlyAtAcceptance : Prop :=
  ∀ (s : State) (p q : Pins), p.rst = q.rst → p.start = q.start → p.taAck = q.taAck → p.taLate = q.taLate →
    p.taR = q.taR →
    (s.busy = true ∨ p.start = false → clockEdge p s = clockEdge q s) ∧
    (p.op = 0 → q.op = 0 → p.t = q.t → clockEdge p s = clockEdge q s) ∧
    (p.op = 1 → q.op = 1 → p.pdata = q.pdata → p.plo = q.plo → p.phi = q.phi → clockEdge p s = clockEdge q s)

/-- PARITY taken cycle by cycle, whatever the open latency, ends in the state the whole operation gives, up to the count of
free values (`00_scope.md` R9, `10_state.md` section 1, `70_reset_and_hazards.md` section 5). That `done` is the same on both
paths is the reading of log 6. -/
def Obligations.ClockedParityIsTheOperation : Prop :=
  ∀ (s : State) (b : Frame) (lo hi : BitVec 6) (rest : List HostAction), ParityReady s lo hi →
    ∃ s₁ s₂, exec (.parity b lo hi) { s with script := rest } = .next s₁ ∧
      steps (parityCycles b lo hi).length { s with script := parityCycles b lo hi ++ rest } = .next s₂ ∧
      s₂ = { s₁ with draws := s₂.draws }

/-- ENCODE taken cycle by cycle, whatever the platform's two delays and the open latency, ends in the state the whole
operation gives, up to the count of free values (`00_scope.md` R9, `42_time_arith.md` section 2). That `done` is the same on
both paths is the reading of log 6, and the cycles of the two requests are those of log 5. -/
def Obligations.ClockedEncodeIsTheOperation : Prop :=
  ∀ (s : State) (t nm : CalendarTime) (w : CtWord) (d₁ d₂ : Nat) (rest : List HostAction),
    EncodeReady s t nm (ctOfWord w) →
    ∃ s₁ s₂, exec (.encode t) { s with script := rest } = .next s₁ ∧
      steps (encodeCycles (wordOfCt t) (wordOfCt nm) w d₁ d₂).length
        { s with script := encodeCycles (wordOfCt t) (wordOfCt nm) w d₁ d₂ ++ rest } = .next s₂ ∧
      s₂ = { s₁ with draws := s₂.draws }

/-- The two requests carry the unmodified T, 60 seconds first; an operation other than ENCODE, and an idle block, request
nothing (`42_time_arith.md` section 2); and in every cycle of an ENCODE, not only those of the requests, `ta_t` shows its T
(`10_state.md` section 1). -/
def Obligations.RequestsCarryTheUnmodifiedTime : Prop :=
  (∀ (s : State) (p : Pins) (w : CtWord), s.inflight = none → p.rst = false → p.taAck = false → p.start = true →
    p.op = 0 → p.t = .whole w → inRangeCT (ctOfWord w) = true →
    ∃ s', clockEdge p s = .next s' ∧ s'.busy = true ∧ taRequest s' = some (.minute, w)) ∧
  (∀ (s : State) (p : Pins) (t : CalendarTime) (w : CtWord), s.inflight = some (.encode t .wait60) → p.rst = false →
    p.start = false → p.taAck = true → p.taLate = false → p.taR = .whole w → inRangeCT (ctOfWord w) = true →
    ∃ s', clockEdge p s = .next s' ∧ s'.busy = true ∧ taRequest s' = some (.hour, wordOfCt t)) ∧
  (∀ (s : State) (a : Advance) (w : CtWord), taRequest s = some (a, w) →
    ∃ t, w = wordOfCt t ∧
      (a = .minute ∧ s.inflight = some (.encode t .request60) ∨
       a = .hour ∧ ∃ nm, s.inflight = some (.encode t (.request3600 nm)))) ∧
  (∀ (s : State) (w : CtWord), statedTaT s = some w ↔ ∃ t ph, s.inflight = some (.encode t ph) ∧ w = wordOfCt t)

/-- A request that is never answered leaves the block busy for ever: after any cycles without an acknowledge, a command or a
reset, whatever the other pins carry, the same ENCODE still waits for the same answer and `ta_t` shows its T
(`42_time_arith.md` section 2, `10_state.md` section 1). -/
def Obligations.UnansweredRequestStaysBusy : Prop :=
  ∀ (s : State) (t : CalendarTime) (ph : EncodePhase) (cycles : List Pins),
    (ph = .wait60 ∨ ∃ nm, ph = .wait3600 nm) → s.inflight = some (.encode t ph) →
    (∀ p ∈ cycles, p.rst = false ∧ p.start = false ∧ p.taAck = false) →
    ∃ s', steps cycles.length { s with script := cycles.map .clock } = .next s' ∧
      s'.inflight = some (.encode t ph) ∧ s'.busy = true ∧ statedTaT s' = some (wordOfCt t)

/-! ## Whole-machine rules -/

/-- The invariant holds after reset. -/
def Obligations.ResetMeetsTheInvariant : Prop := Inv State.reset

/-- Every step keeps the invariant: a frame the host may read is a legal frame that STATUS reports, and everything the host
has read is legal (`41_encode.md` R136, `10_state.md` R27, R28, `60_exceptions.md` section 4). -/
def Obligations.EveryStepKeepsTheInvariant : Prop :=
  ∀ s s' : State, Inv s → step s = .next s' → Inv s'

/-- FRAME_VALID and PBIT_VALID are set only by the completion of their operation and cleared only by reset
(`10_state.md` section 3, R27, R29). -/
def Obligations.ValidFlagsAreClearedOnlyByReset : Prop :=
  ∀ s s' : State, step s = .next s' →
    (s.frameValid = true → s'.frameValid = true ∨ Resets s) ∧
    (s.pbitValid = true → s'.pbitValid = true ∨ Resets s) ∧
    (s.frameValid = false → s'.frameValid = true → Encodes s ∧ s'.busy = false ∧ s'.done = true) ∧
    (s.pbitValid = false → s'.pbitValid = true → Parities s ∧ s'.busy = false ∧ s'.done = true)

/-- FRAME and STATUS are changed only by an ENCODE or a reset, PBIT only by a PARITY or a reset (`10_state.md` section 3,
R26, R28, R29). -/
def Obligations.EachResultHasOneWriter : Prop :=
  ∀ s s' : State, step s = .next s' →
    (s'.frame ≠ s.frame ∨ s'.status ≠ s.status → Encodes s ∨ Resets s) ∧
    (s'.pbit ≠ s.pbit → Parities s ∨ Resets s)

/-- No step changes the time-arithmetic primitive: it stays one function of its arguments (`42_time_arith.md` R152). -/
def Obligations.NoStepChangesTheTimeArithmetic : Prop :=
  ∀ s s' : State, step s = .next s' → s'.platform = s.platform ∧
    ∀ t a, timeAdd s'.platform t a = timeAdd s.platform t a

/-! ## The reference instance of the primitive -/

/-- Adding one minute sixty times is adding one hour, "cannot resolve" included (`42_time_arith.md` section 3, R158). -/
def Obligations.SixtyMinutesAreOneHour : Prop :=
  ∀ (century : Nat) (t : CalendarTime), t.minute.toNat ≤ 59 →
    (fun x : Option CalendarTime => x.bind fun r => wallAdd century r .minute)^[60] (some t) = wallAdd century t .hour

/-- The reference instance answers every real date with a real date, except the last hour (for one hour) and the last minute
(for one minute) of the year 4095, and answers nothing else (`42_time_arith.md` section 3, R157, R158). -/
def Obligations.ReferenceAnswersAreRealDates : Prop :=
  ∀ (century : Nat) (d : CalendarTime → Advance → DstState) (t : CalendarTime) (a : Advance),
    (realDate century t = false → timeAddRef century d t a = none) ∧
    (realDate century t = true →
      (timeAddRef century d t a = none ↔ t.year.toNat = 4095 ∧ t.month.toNat = 12 ∧ t.day.toNat = 31 ∧ t.hour.toNat = 23 ∧
        (a = .minute → t.minute.toNat = 59)) ∧
      ∀ r, timeAddRef century d t a = some r → realDate century r = true ∧
        (∃ w, wallAdd century t a = some w ∧ r = { w with dst := dstOfState (d t a) }) ∧
        r.dow.toNat = (if r.day = t.day then t.dow.toNat else (t.dow.toNat + 1) % 7))

/-- Attached to the reference instance ENCODE completes for every real date one hour after which WallAdd answers, and the frame
describes the minute after T in every field: the next minute of the hour, the first minute of the next hour, or the first
minute of the next day, with the month and the year following (`41_encode.md` section 6, R139; `42_time_arith.md` section 3). -/
def Obligations.ReferenceEncodeDescribesTheFollowingMinute : Prop :=
  ∀ (s : State) (century : Nat) (rows : List DstRow) (t : CalendarTime), s.inflight = none →
    s.platform = .reference century rows → realDate century t = true → wallAdd century t .hour ≠ none →
    ∃ s', exec (.encode t) s = .next s' ∧
      (t.minute.toNat < 59 → minuteOf s'.frame = t.minute.toNat + 1 ∧ hourOf s'.frame = t.hour.toNat ∧ SameDate s'.frame t) ∧
      (t.minute.toNat = 59 → t.hour.toNat < 23 →
        minuteOf s'.frame = 0 ∧ hourOf s'.frame = t.hour.toNat + 1 ∧ SameDate s'.frame t) ∧
      (t.minute.toNat = 59 → t.hour.toNat = 23 →
        minuteOf s'.frame = 0 ∧ hourOf s'.frame = 0 ∧ weekdayOf s'.frame = t.dow.toNat + 1 ∧
        (t.day.toNat < daysIn t.month.toNat (calendarYear century t.year) →
          dayOf s'.frame = t.day.toNat + 1 ∧ monthOf s'.frame = t.month.toNat ∧ yearOf s'.frame = t.year.toNat % 100) ∧
        (t.day.toNat = daysIn t.month.toNat (calendarYear century t.year) →
          dayOf s'.frame = 1 ∧
          (t.month.toNat < 12 → monthOf s'.frame = t.month.toNat + 1 ∧ yearOf s'.frame = t.year.toNat % 100) ∧
          (t.month.toNat = 12 → monthOf s'.frame = 1 ∧ yearOf s'.frame = (t.year.toNat + 1) % 100)))
end

