-- ==== Sys2Proof/Laws/Frame.lean ====
section
/-! SUPPORT. The laws of cell access, group writes and the parity function. -/

namespace Sys2Proof.Machine

open Sys2Proof.Safety

/-- A write reaches its own cell and no other. -/
theorem getLsbD_setCell (f : Frame) (p q : Nat) (b : Bool) :
    (setCell f p b).getLsbD q = if q = p ∧ p < 59 then b else f.getLsbD q := by
  unfold setCell
  by_cases hq : q < 59
  · by_cases h : q = p
    · subst h; cases b <;> simp [hq]
    · cases b <;> simp [hq, h]
  · have h1 : ¬ (q = p ∧ p < 59) := by omega
    have h2 : ∀ g : Frame, g.getLsbD q = false := fun g => BitVec.getLsbD_of_ge g q (by omega)
    simp [h1, h2]

/-- `MemWrite` puts bit k of the value into cell p+k and leaves every other cell (`20_memory.md` R53). -/
theorem getLsbD_memWrite (f : Frame) (p n v q : Nat) :
    (memWrite f p n v).getLsbD q =
      if p ≤ q ∧ q < p + n ∧ q < 59 then v.testBit (q - p) else f.getLsbD q := by
  induction n with
  | zero => simp only [memWrite]; rw [if_neg (by omega)]
  | succ n ih =>
    simp only [memWrite, getLsbD_setCell, ih]
    by_cases h : q = p + n
    · subst h
      by_cases h59 : p + n < 59
      · rw [if_pos ⟨rfl, h59⟩, if_pos ⟨by omega, by omega, h59⟩]; congr 1; omega
      · rw [if_neg (by omega), if_neg (by omega), if_neg (by omega)]
    · rw [if_neg (by omega)]
      by_cases h2 : p ≤ q ∧ q < p + n ∧ q < 59
      · rw [if_pos h2, if_pos (by omega)]
      · rw [if_neg h2, if_neg (by omega)]

/-- A cell that no group covers keeps its value. -/
theorem getLsbD_writeGroups_of_outside (gs : List CellGroup) (f : Frame) (q : Nat)
    (h : ∀ g ∈ gs, ¬ (g.pos ≤ q ∧ q < g.pos + g.width)) :
    (writeGroups f gs).getLsbD q = f.getLsbD q := by
  induction gs generalizing f with
  | nil => rfl
  | cons g gs ih =>
    have hg := h g (by simp)
    rw [writeGroups, ih _ (fun g' hg' => h g' (by simp [hg'])), getLsbD_memWrite, if_neg (by omega)]

/-- Two groups share no cell. -/
def CellGroup.Disjoint (a b : CellGroup) : Prop := a.pos + a.width ≤ b.pos ∨ b.pos + b.width ≤ a.pos

/-- When no two groups share a cell, every group's cells hold that group's value, whatever the frame held before
(`20_memory.md` R58). -/
theorem getLsbD_writeGroups (gs : List CellGroup) (f : Frame) (g : CellGroup) (k : Nat)
    (hd : gs.Pairwise CellGroup.Disjoint) (hg : g ∈ gs) (hk : k < g.width) (hw : g.pos + g.width ≤ 59) :
    (writeGroups f gs).getLsbD (g.pos + k) = g.value.testBit k := by
  induction gs generalizing f with
  | nil => simp at hg
  | cons a gs ih =>
    rw [writeGroups]
    obtain ⟨ha, hgs⟩ := List.pairwise_cons.mp hd
    rcases List.mem_cons.mp hg with rfl | hmem
    · rw [getLsbD_writeGroups_of_outside]
      · rw [getLsbD_memWrite, if_pos (by omega)]; congr 1; omega
      · intro b hb
        have := ha b hb
        unfold CellGroup.Disjoint at this
        omega
    · exact ih _ hgs hmem

/-- The number in a field is given by its cells (`00_scope.md` R7). -/
theorem field_of_cells (f : Frame) (p n v : Nat) (h : ∀ k, k < n → f.getLsbD (p + k) = v.testBit k) :
    field f p n = v % 2 ^ n := by
  have : f.extractLsb' p n = BitVec.ofNat n v := by
    apply BitVec.eq_of_getLsbD_eq
    intro k hk
    simp only [BitVec.getLsbD_extractLsb', BitVec.getLsbD_ofNat, hk, decide_true, Bool.true_and, h k hk]
  rw [field, this, BitVec.toNat_ofNat]

/-- `MemRead(p, n)` is a number of n bits (`00_scope.md` R7). -/
theorem memRead_lt (f : Frame) (p n : Nat) : memRead f p n < 2 ^ n := by
  induction n with
  | zero => simp [memRead]
  | succ n ih =>
    have : (getCell f (p + n)).toNat ≤ 1 := Bool.toNat_le _
    rw [memRead, Nat.pow_succ]
    have := Nat.mul_le_mul_right (2 ^ n) this
    omega

/-- Reading back what was written: cells that carry a number's bits read as that number (`20_memory.md` R54). -/
theorem memRead_of_cells (f : Frame) (p n v : Nat) (h : ∀ k, k < n → f.getLsbD (p + k) = v.testBit k) :
    memRead f p n = v % 2 ^ n := by
  induction n with
  | zero => simp [memRead, Nat.mod_one]
  | succ n ih =>
    rw [memRead, ih (fun k hk => h k (by omega)), getCell, h n (by omega), Nat.toNat_testBit, Nat.mod_pow_succ, Nat.mul_comm]

/-- The loop of the parity function counts the ones of its range (`40_parity.md` R100). -/
theorem onesFrom_eq_countP (b : Frame) (lo n : Nat) :
    onesFrom b lo n = (List.range' lo n).countP fun p => b.getLsbD p := by
  induction n with
  | zero => rfl
  | succ n ih =>
    rw [onesFrom, ih, List.range'_concat, List.countP_append]
    cases h : b.getLsbD (lo + n) <;> simp [getCell, h]

/-- `Par` is 1 exactly when the range holds an odd number of ones (`40_parity.md` R100). -/
theorem par_eq (b : Frame) (lo hi : Nat) : par b lo hi = decide (onesIn b lo hi % 2 = 1) := by
  rw [par, onesIn, onesFrom_eq_countP]

/-- The ones of a range split at any point inside it. -/
theorem onesIn_split (b : Frame) (lo mid hi : Nat) (h1 : lo ≤ mid) (h2 : mid ≤ hi) :
    onesIn b lo hi = onesIn b lo mid + onesIn b mid hi := by
  have hmid : mid = lo + (mid - lo) := by omega
  have : hi - lo = (mid - lo) + (hi - mid) := by omega
  rw [onesIn, onesIn, onesIn, this, ← List.range'_append_1, List.countP_append, ← hmid]

/-- A range of one cell. -/
theorem onesIn_single (b : Frame) (p : Nat) : onesIn b p (p + 1) = (b.getLsbD p).toNat := by
  cases h : b.getLsbD p <;> simp [onesIn, h]

/-- Only the cells of the range matter (`40_parity.md` R100). -/
theorem onesIn_congr (b c : Frame) (lo hi : Nat) (h : ∀ p, lo ≤ p → p < hi → b.getLsbD p = c.getLsbD p) :
    onesIn b lo hi = onesIn c lo hi := by
  rw [onesIn, onesIn]
  apply List.countP_congr
  intro p hp
  rw [List.mem_range'_1] at hp
  rw [h p hp.1 (by omega)]

/-- Adding the cell that holds the parity of the range makes the total even (`40_parity.md` R101). -/
theorem onesIn_with_parity (f : Frame) (lo hi : Nat) (hle : lo ≤ hi)
    (h : f.getLsbD hi = decide (onesIn f lo hi % 2 = 1)) : onesIn f lo (hi + 1) % 2 = 0 := by
  rw [onesIn_split f lo hi (hi + 1) hle (by omega), onesIn_single, h]
  by_cases h1 : onesIn f lo hi % 2 = 1 <;> simp [h1] <;> omega

end Sys2Proof.Machine
end

