-- ==== Sys2Proof/Laws/State.lean ====
section
/-! SUPPORT. One lemma per field per update of State, true by definition: later proofs never unfold a record update. -/

namespace Sys2Proof.Machine

@[simp] theorem completeEncode_frame (s : State) (f : Frame) (st : Status) : (completeEncode s f st).frame = f := rfl
@[simp] theorem completeEncode_frameValid (s : State) (f : Frame) (st : Status) : (completeEncode s f st).frameValid = true := rfl
@[simp] theorem completeEncode_status (s : State) (f : Frame) (st : Status) : (completeEncode s f st).status = st := rfl
@[simp] theorem completeEncode_pbit (s : State) (f : Frame) (st : Status) : (completeEncode s f st).pbit = s.pbit := rfl
@[simp] theorem completeEncode_pbitValid (s : State) (f : Frame) (st : Status) : (completeEncode s f st).pbitValid = s.pbitValid := rfl
@[simp] theorem completeEncode_inflight (s : State) (f : Frame) (st : Status) : (completeEncode s f st).inflight = none := rfl
@[simp] theorem completeEncode_done (s : State) (f : Frame) (st : Status) : (completeEncode s f st).done = true := rfl
@[simp] theorem completeEncode_platform (s : State) (f : Frame) (st : Status) : (completeEncode s f st).platform = s.platform := rfl
@[simp] theorem completeEncode_script (s : State) (f : Frame) (st : Status) : (completeEncode s f st).script = s.script := rfl
@[simp] theorem completeEncode_seen (s : State) (f : Frame) (st : Status) : (completeEncode s f st).seen = s.seen := rfl
@[simp] theorem completeEncode_draws (s : State) (f : Frame) (st : Status) : (completeEncode s f st).draws = s.draws := rfl

@[simp] theorem completeParity_frame (s : State) (b : Bool) : (completeParity s b).frame = s.frame := rfl
@[simp] theorem completeParity_frameValid (s : State) (b : Bool) : (completeParity s b).frameValid = s.frameValid := rfl
@[simp] theorem completeParity_status (s : State) (b : Bool) : (completeParity s b).status = s.status := rfl
@[simp] theorem completeParity_pbit (s : State) (b : Bool) : (completeParity s b).pbit = b := rfl
@[simp] theorem completeParity_pbitValid (s : State) (b : Bool) : (completeParity s b).pbitValid = true := rfl
@[simp] theorem completeParity_inflight (s : State) (b : Bool) : (completeParity s b).inflight = none := rfl
@[simp] theorem completeParity_done (s : State) (b : Bool) : (completeParity s b).done = true := rfl
@[simp] theorem completeParity_platform (s : State) (b : Bool) : (completeParity s b).platform = s.platform := rfl
@[simp] theorem completeParity_script (s : State) (b : Bool) : (completeParity s b).script = s.script := rfl
@[simp] theorem completeParity_seen (s : State) (b : Bool) : (completeParity s b).seen = s.seen := rfl
@[simp] theorem completeParity_draws (s : State) (b : Bool) : (completeParity s b).draws = s.draws := rfl

@[simp] theorem holdEncode_frame (s : State) (t : CalendarTime) (ph : EncodePhase) : (holdEncode s t ph).frame = Config.freeFrame s.draws := rfl
@[simp] theorem holdEncode_frameValid (s : State) (t : CalendarTime) (ph : EncodePhase) : (holdEncode s t ph).frameValid = s.frameValid := rfl
@[simp] theorem holdEncode_status (s : State) (t : CalendarTime) (ph : EncodePhase) : (holdEncode s t ph).status = Config.freeStatus s.draws := rfl
@[simp] theorem holdEncode_pbit (s : State) (t : CalendarTime) (ph : EncodePhase) : (holdEncode s t ph).pbit = s.pbit := rfl
@[simp] theorem holdEncode_pbitValid (s : State) (t : CalendarTime) (ph : EncodePhase) : (holdEncode s t ph).pbitValid = s.pbitValid := rfl
@[simp] theorem holdEncode_inflight (s : State) (t : CalendarTime) (ph : EncodePhase) : (holdEncode s t ph).inflight = some (.encode t ph) := rfl
@[simp] theorem holdEncode_done (s : State) (t : CalendarTime) (ph : EncodePhase) : (holdEncode s t ph).done = false := rfl
@[simp] theorem holdEncode_platform (s : State) (t : CalendarTime) (ph : EncodePhase) : (holdEncode s t ph).platform = s.platform := rfl
@[simp] theorem holdEncode_script (s : State) (t : CalendarTime) (ph : EncodePhase) : (holdEncode s t ph).script = s.script := rfl
@[simp] theorem holdEncode_seen (s : State) (t : CalendarTime) (ph : EncodePhase) : (holdEncode s t ph).seen = s.seen := rfl
@[simp] theorem holdEncode_draws (s : State) (t : CalendarTime) (ph : EncodePhase) : (holdEncode s t ph).draws = s.draws + 1 := rfl

@[simp] theorem holdParity_frame (s : State) (b : Frame) (lo hi : BitVec 6) (n : Nat) : (holdParity s b lo hi n).frame = s.frame := rfl
@[simp] theorem holdParity_frameValid (s : State) (b : Frame) (lo hi : BitVec 6) (n : Nat) : (holdParity s b lo hi n).frameValid = s.frameValid := rfl
@[simp] theorem holdParity_status (s : State) (b : Frame) (lo hi : BitVec 6) (n : Nat) : (holdParity s b lo hi n).status = s.status := rfl
@[simp] theorem holdParity_pbit (s : State) (b : Frame) (lo hi : BitVec 6) (n : Nat) : (holdParity s b lo hi n).pbit = Config.freeBit s.draws := rfl
@[simp] theorem holdParity_pbitValid (s : State) (b : Frame) (lo hi : BitVec 6) (n : Nat) : (holdParity s b lo hi n).pbitValid = s.pbitValid := rfl
@[simp] theorem holdParity_inflight (s : State) (b : Frame) (lo hi : BitVec 6) (n : Nat) : (holdParity s b lo hi n).inflight = some (.parity b lo hi n) := rfl
@[simp] theorem holdParity_done (s : State) (b : Frame) (lo hi : BitVec 6) (n : Nat) : (holdParity s b lo hi n).done = false := rfl
@[simp] theorem holdParity_platform (s : State) (b : Frame) (lo hi : BitVec 6) (n : Nat) : (holdParity s b lo hi n).platform = s.platform := rfl
@[simp] theorem holdParity_script (s : State) (b : Frame) (lo hi : BitVec 6) (n : Nat) : (holdParity s b lo hi n).script = s.script := rfl
@[simp] theorem holdParity_seen (s : State) (b : Frame) (lo hi : BitVec 6) (n : Nat) : (holdParity s b lo hi n).seen = s.seen := rfl
@[simp] theorem holdParity_draws (s : State) (b : Frame) (lo hi : BitVec 6) (n : Nat) : (holdParity s b lo hi n).draws = s.draws + 1 := rfl

@[simp] theorem idleCycle_frame (s : State) : (idleCycle s).frame = s.frame := rfl
@[simp] theorem idleCycle_frameValid (s : State) : (idleCycle s).frameValid = s.frameValid := rfl
@[simp] theorem idleCycle_status (s : State) : (idleCycle s).status = s.status := rfl
@[simp] theorem idleCycle_pbit (s : State) : (idleCycle s).pbit = s.pbit := rfl
@[simp] theorem idleCycle_pbitValid (s : State) : (idleCycle s).pbitValid = s.pbitValid := rfl
@[simp] theorem idleCycle_inflight (s : State) : (idleCycle s).inflight = s.inflight := rfl
@[simp] theorem idleCycle_done (s : State) : (idleCycle s).done = false := rfl
@[simp] theorem idleCycle_platform (s : State) : (idleCycle s).platform = s.platform := rfl
@[simp] theorem idleCycle_script (s : State) : (idleCycle s).script = s.script := rfl
@[simp] theorem idleCycle_seen (s : State) : (idleCycle s).seen = s.seen := rfl
@[simp] theorem idleCycle_draws (s : State) : (idleCycle s).draws = s.draws := rfl

@[simp] theorem resetBlock_frame (s : State) : (resetBlock s).frame = Config.freeFrame s.draws := rfl
@[simp] theorem resetBlock_frameValid (s : State) : (resetBlock s).frameValid = false := rfl
@[simp] theorem resetBlock_status (s : State) : (resetBlock s).status = Config.freeStatus s.draws := rfl
@[simp] theorem resetBlock_pbit (s : State) : (resetBlock s).pbit = Config.freeBit s.draws := rfl
@[simp] theorem resetBlock_pbitValid (s : State) : (resetBlock s).pbitValid = false := rfl
@[simp] theorem resetBlock_inflight (s : State) : (resetBlock s).inflight = none := rfl
@[simp] theorem resetBlock_done (s : State) : (resetBlock s).done = false := rfl
@[simp] theorem resetBlock_platform (s : State) : (resetBlock s).platform = s.platform := rfl
@[simp] theorem resetBlock_script (s : State) : (resetBlock s).script = s.script := rfl
@[simp] theorem resetBlock_seen (s : State) : (resetBlock s).seen = s.seen := rfl
@[simp] theorem resetBlock_draws (s : State) : (resetBlock s).draws = s.draws + 1 := rfl

@[simp] theorem record_frame (s : State) (o : Observation) : (record s o).frame = s.frame := rfl
@[simp] theorem record_frameValid (s : State) (o : Observation) : (record s o).frameValid = s.frameValid := rfl
@[simp] theorem record_status (s : State) (o : Observation) : (record s o).status = s.status := rfl
@[simp] theorem record_pbit (s : State) (o : Observation) : (record s o).pbit = s.pbit := rfl
@[simp] theorem record_pbitValid (s : State) (o : Observation) : (record s o).pbitValid = s.pbitValid := rfl
@[simp] theorem record_inflight (s : State) (o : Observation) : (record s o).inflight = s.inflight := rfl
@[simp] theorem record_done (s : State) (o : Observation) : (record s o).done = s.done := rfl
@[simp] theorem record_platform (s : State) (o : Observation) : (record s o).platform = s.platform := rfl
@[simp] theorem record_script (s : State) (o : Observation) : (record s o).script = s.script := rfl
@[simp] theorem record_seen (s : State) (o : Observation) : (record s o).seen = o :: s.seen := rfl
@[simp] theorem record_draws (s : State) (o : Observation) : (record s o).draws = s.draws := rfl

@[simp] theorem recordDrawn_frame (s : State) (o : Observation) : (recordDrawn s o).frame = s.frame := rfl
@[simp] theorem recordDrawn_frameValid (s : State) (o : Observation) : (recordDrawn s o).frameValid = s.frameValid := rfl
@[simp] theorem recordDrawn_status (s : State) (o : Observation) : (recordDrawn s o).status = s.status := rfl
@[simp] theorem recordDrawn_pbit (s : State) (o : Observation) : (recordDrawn s o).pbit = s.pbit := rfl
@[simp] theorem recordDrawn_pbitValid (s : State) (o : Observation) : (recordDrawn s o).pbitValid = s.pbitValid := rfl
@[simp] theorem recordDrawn_inflight (s : State) (o : Observation) : (recordDrawn s o).inflight = s.inflight := rfl
@[simp] theorem recordDrawn_done (s : State) (o : Observation) : (recordDrawn s o).done = s.done := rfl
@[simp] theorem recordDrawn_platform (s : State) (o : Observation) : (recordDrawn s o).platform = s.platform := rfl
@[simp] theorem recordDrawn_script (s : State) (o : Observation) : (recordDrawn s o).script = s.script := rfl
@[simp] theorem recordDrawn_seen (s : State) (o : Observation) : (recordDrawn s o).seen = o :: s.seen := rfl
@[simp] theorem recordDrawn_draws (s : State) (o : Observation) : (recordDrawn s o).draws = s.draws + 1 := rfl

@[simp] theorem setScript_frame (s : State) (acts : List HostAction) : (setScript s acts).frame = s.frame := rfl
@[simp] theorem setScript_frameValid (s : State) (acts : List HostAction) : (setScript s acts).frameValid = s.frameValid := rfl
@[simp] theorem setScript_status (s : State) (acts : List HostAction) : (setScript s acts).status = s.status := rfl
@[simp] theorem setScript_pbit (s : State) (acts : List HostAction) : (setScript s acts).pbit = s.pbit := rfl
@[simp] theorem setScript_pbitValid (s : State) (acts : List HostAction) : (setScript s acts).pbitValid = s.pbitValid := rfl
@[simp] theorem setScript_inflight (s : State) (acts : List HostAction) : (setScript s acts).inflight = s.inflight := rfl
@[simp] theorem setScript_done (s : State) (acts : List HostAction) : (setScript s acts).done = s.done := rfl
@[simp] theorem setScript_platform (s : State) (acts : List HostAction) : (setScript s acts).platform = s.platform := rfl
@[simp] theorem setScript_script (s : State) (acts : List HostAction) : (setScript s acts).script = acts := rfl
@[simp] theorem setScript_seen (s : State) (acts : List HostAction) : (setScript s acts).seen = s.seen := rfl
@[simp] theorem setScript_draws (s : State) (acts : List HostAction) : (setScript s acts).draws = s.draws := rfl

/-- BUSY is 1 exactly when an operation is in progress (`10_state.md` R30). -/
theorem busy_eq_false (s : State) : s.busy = false ↔ s.inflight = none := by
  simp [State.busy]

/-- Nothing in progress is neither operation in progress. -/
theorem encodeInFlight_of_idle (s : State) (h : s.inflight = none) : encodeInFlight s = false := by
  simp [encodeInFlight, h]

theorem parityInFlight_of_idle (s : State) (h : s.inflight = none) : parityInFlight s = false := by
  simp [parityInFlight, h]

/-- An ENCODE is in progress when one is held. -/
theorem encodeInFlight_iff (s : State) : encodeInFlight s = true ↔ ∃ t ph, s.inflight = some (.encode t ph) := by
  unfold encodeInFlight
  rcases s.inflight with _ | (_ | _) <;> simp

theorem parityInFlight_iff (s : State) :
    parityInFlight s = true ↔ ∃ b lo hi n, s.inflight = some (.parity b lo hi n) := by
  unfold parityInFlight
  rcases s.inflight with _ | (_ | _) <;> simp

end Sys2Proof.Machine
end

