-- ==== Sys2Proof/Laws/Encode.lean ====
section
/-! SUPPORT. What `encodeCore` writes: one lemma for the cells of a group, one per parity cell, and the frame format. -/

namespace Sys2Proof.Machine

open Sys2Proof.Safety

/-- The legal values, field by field (`92_eei_decisions.md` D28). -/
structure LegalFields (x : CalendarTime) : Prop where
  minute : x.minute.toNat ≤ 59
  hour   : x.hour.toNat ≤ 23
  day    : 1 ≤ x.day.toNat ∧ x.day.toNat ≤ 31
  dow    : x.dow.toNat ≤ 6
  month  : 1 ≤ x.month.toNat ∧ x.month.toNat ≤ 12
  dst    : x.dst ≠ .reserved

theorem legalFields_of_inRangeCT (x : CalendarTime) (h : inRangeCT x = true) : LegalFields x := by
  simp only [inRangeCT, Bool.and_eq_true, decide_eq_true_eq] at h
  obtain ⟨⟨⟨⟨⟨h1, h2⟩, h3⟩, h4⟩, h5⟩, h6⟩ := h
  exact ⟨h1, h2, h3, h4, h5, h6⟩

/-- The weekday of the frame is 1 to 7 (`41_encode.md` R131). -/
theorem frameWeekday_toNat (d : BitVec 3) : (frameWeekday d).toNat = if d = 0 then 7 else d.toNat := by
  unfold frameWeekday; split <;> rfl

theorem frameWeekday_pos (d : BitVec 3) : 1 ≤ (frameWeekday d).toNat := by
  rw [frameWeekday_toNat]
  split
  · decide
  · rename_i h
    have : d.toNat ≠ 0 := fun e => h (BitVec.eq_of_toNat_eq (by simpa using e))
    omega

/-- The groups of the data positions share no cell (`20_memory.md` R58 (a)). -/
theorem dataGroups_disjoint (a : Dst) (nm : CalendarTime) (b : Dst) :
    (dataGroups a nm b).Pairwise CellGroup.Disjoint := by
  simp [dataGroups, CellGroup.Disjoint, groupM, groupRSV, groupR, groupA1, groupZ1, groupZ2, groupA2, groupS,
    groupMinU, groupMinT, groupHourU, groupHourT, groupDayU, groupDayT, groupWday, groupMonU, groupMonT,
    groupYearU, groupYearT]

/-- The parity positions 28, 35, 58 lie in no data group, and no group reaches beyond position 57. -/
theorem dataGroups_avoid (a : Dst) (nm : CalendarTime) (b : Dst) :
    ∀ g ∈ dataGroups a nm b, g.pos + g.width ≤ 58 ∧ (g.pos + g.width ≤ 28 ∨ 29 ≤ g.pos) ∧
      (g.pos + g.width ≤ 35 ∨ 36 ≤ g.pos) := by
  simp [dataGroups, groupM, groupRSV, groupR, groupA1, groupZ1, groupZ2, groupA2, groupS,
    groupMinU, groupMinT, groupHourU, groupHourT, groupDayU, groupDayT, groupWday, groupMonU, groupMonT,
    groupYearU, groupYearT]

/-- The parity cells are written after and beside the data cells. -/
theorem getLsbD_encodeCore_data (old : Frame) (a : Dst) (nm : CalendarTime) (b : Dst) (q : Nat)
    (h28 : q ≠ 28) (h35 : q ≠ 35) (h58 : q ≠ 58) :
    (encodeCore old a nm b).getLsbD q = (writeGroups old (dataGroups a nm b)).getLsbD q := by
  simp [encodeCore, writeP1, writeP2, writeP3, getLsbD_setCell, h28, h35, h58]

/-- The cells of a data group hold the group's value, whatever the frame held before. -/
theorem getLsbD_encodeCore_group (old : Frame) (a : Dst) (nm : CalendarTime) (b : Dst) (g : CellGroup) (k : Nat)
    (hg : g ∈ dataGroups a nm b) (hk : k < g.width) :
    (encodeCore old a nm b).getLsbD (g.pos + k) = g.value.testBit k := by
  obtain ⟨h1, h2, h3⟩ := dataGroups_avoid a nm b g hg
  rw [getLsbD_encodeCore_data _ _ _ _ _ (by omega) (by omega) (by omega)]
  exact getLsbD_writeGroups _ _ _ _ (dataGroups_disjoint a nm b) hg hk (by omega)

/-- The number in a data group's cells. -/
theorem field_encodeCore (old : Frame) (a : Dst) (nm : CalendarTime) (b : Dst) (g : CellGroup)
    (hg : g ∈ dataGroups a nm b) :
    field (encodeCore old a nm b) g.pos g.width = g.value % 2 ^ g.width :=
  field_of_cells _ _ _ _ fun k hk => getLsbD_encodeCore_group old a nm b g k hg hk

/-- P1 is the parity of the minute cells of the same frame (`41_encode.md` R135). -/
theorem encodeCore_p1 (old : Frame) (a : Dst) (nm : CalendarTime) (b : Dst) :
    (encodeCore old a nm b).getLsbD 28 = decide (onesIn (encodeCore old a nm b) 21 28 % 2 = 1) := by
  have hc : ∀ p, 21 ≤ p → p < 28 →
      (writeGroups old (dataGroups a nm b)).getLsbD p = (encodeCore old a nm b).getLsbD p := fun p h1 h2 =>
    (getLsbD_encodeCore_data _ _ _ _ _ (by omega) (by omega) (by omega)).symm
  rw [← onesIn_congr _ _ _ _ hc]
  rw [encodeCore, writeP3, getLsbD_setCell, if_neg (by omega), writeP2, getLsbD_setCell, if_neg (by omega), writeP1,
    getLsbD_setCell, if_pos (by omega), par_eq]

/-- P2 is the parity of the hour cells of the same frame (`41_encode.md` R135). -/
theorem encodeCore_p2 (old : Frame) (a : Dst) (nm : CalendarTime) (b : Dst) :
    (encodeCore old a nm b).getLsbD 35 = decide (onesIn (encodeCore old a nm b) 29 35 % 2 = 1) := by
  have hc : ∀ p, 29 ≤ p → p < 35 →
      (writeP1 (writeGroups old (dataGroups a nm b))).getLsbD p = (encodeCore old a nm b).getLsbD p :=
    fun p h1 h2 => by
      rw [getLsbD_encodeCore_data _ _ _ _ _ (by omega) (by omega) (by omega), writeP1, getLsbD_setCell,
        if_neg (by omega)]
  rw [← onesIn_congr _ _ _ _ hc]
  rw [encodeCore, writeP3, getLsbD_setCell, if_neg (by omega), writeP2, getLsbD_setCell, if_pos (by omega), par_eq]

/-- P3 is the parity of the date cells of the same frame (`41_encode.md` R135, `90_conflicts.md` C1). -/
theorem encodeCore_p3 (old : Frame) (a : Dst) (nm : CalendarTime) (b : Dst) :
    (encodeCore old a nm b).getLsbD 58 = decide (onesIn (encodeCore old a nm b) 36 58 % 2 = 1) := by
  have hc : ∀ p, 36 ≤ p → p < 58 →
      (writeP2 (writeP1 (writeGroups old (dataGroups a nm b)))).getLsbD p = (encodeCore old a nm b).getLsbD p :=
    fun p h1 h2 => by
      rw [getLsbD_encodeCore_data _ _ _ _ _ (by omega) (by omega) (by omega), writeP2, writeP1, getLsbD_setCell,
        getLsbD_setCell, if_neg (by omega), if_neg (by omega)]
  rw [← onesIn_congr _ _ _ _ hc]
  rw [encodeCore, writeP3, getLsbD_setCell, if_pos (by omega), par_eq]

/-- The frame of a legal NM has the format of `30_encoding.md` R75. -/
theorem encodeCore_format (old : Frame) (a : Dst) (nm : CalendarTime) (b : Dst) (h : LegalFields nm) :
    FrameFormat (encodeCore old a nm b) a nm b := by
  have hf := fun g hg => field_encodeCore old a nm b g hg
  have hc := fun g k hg hk => getLsbD_encodeCore_group old a nm b g k hg hk
  have z1 := hc (groupZ1 nm) 0 (by simp [dataGroups]) (by simp [groupZ1])
  have z2 := hc (groupZ2 nm) 0 (by simp [dataGroups]) (by simp [groupZ2])
  have a1 := hc (groupA1 a b) 0 (by simp [dataGroups]) (by simp [groupA1])
  obtain ⟨h1, h2, h3, h4, h5, h6⟩ := h
  have hy : nm.year.toNat % 100 < 100 := Nat.mod_lt _ (by decide)
  have hw : (frameWeekday nm.dow).toNat < 8 := (frameWeekday nm.dow).isLt
  constructor
  case m => simpa [groupM, flagZero] using hf groupM (by simp [dataGroups])
  case rsv => simpa [groupRSV] using hf groupRSV (by simp [dataGroups])
  case r => simpa [groupR, flagZero] using hf groupR (by simp [dataGroups])
  case a1 =>
    simp only [groupA1, Nat.add_zero] at a1
    rw [a1]; by_cases e : a = b <;> simp [flagA1, e]
  case z1 =>
    simp only [groupZ1, Nat.add_zero] at z1
    rw [z1]; by_cases e : nm.dst = .inEffect <;> simp [flagZ1, e]
  case z2 =>
    simp only [groupZ1, groupZ2, Nat.add_zero] at z1 z2
    rw [z1, z2]; by_cases e : nm.dst = .inEffect <;> simp [flagZ1, flagZ2, e]
  case a2 => simpa [groupA2, flagZero] using hf groupA2 (by simp [dataGroups])
  case s => simpa [groupS, flagS] using hf groupS (by simp [dataGroups])
  case minU =>
    have := hf (groupMinU nm) (by simp [dataGroups])
    simp only [groupMinU, unitsDigit] at this; omega
  case minT =>
    have := hf (groupMinT nm) (by simp [dataGroups])
    simp only [groupMinT, tensDigit] at this; omega
  case hourU =>
    have := hf (groupHourU nm) (by simp [dataGroups])
    simp only [groupHourU, unitsDigit] at this; omega
  case hourT =>
    have := hf (groupHourT nm) (by simp [dataGroups])
    simp only [groupHourT, tensDigit] at this; omega
  case dayU =>
    have := hf (groupDayU nm) (by simp [dataGroups])
    simp only [groupDayU, unitsDigit] at this; omega
  case dayT =>
    have := hf (groupDayT nm) (by simp [dataGroups])
    simp only [groupDayT, tensDigit] at this; omega
  case wday =>
    have := hf (groupWday nm) (by simp [dataGroups])
    simp only [groupWday] at this
    rw [this, ← frameWeekday_toNat]; omega
  case monU =>
    have := hf (groupMonU nm) (by simp [dataGroups])
    simp only [groupMonU, unitsDigit] at this; omega
  case monT =>
    have := hf (groupMonT nm) (by simp [dataGroups])
    simp only [groupMonT, tensDigit] at this; omega
  case yearU =>
    have := hf (groupYearU nm) (by simp [dataGroups])
    simp only [groupYearU, unitsDigit, yearInCentury] at this; omega
  case yearT =>
    have := hf (groupYearT nm) (by simp [dataGroups])
    simp only [groupYearT, tensDigit, yearInCentury] at this; omega
  case p1 => rw [encodeCore_p1, decide_eq_true_iff]
  case p2 => rw [encodeCore_p2, decide_eq_true_iff]
  case p3 => rw [encodeCore_p3, decide_eq_true_iff]

/-- No cell of the result depends on what FRAME held before (`10_state.md` R37, `20_memory.md` R58 (b)). -/
theorem encodeCore_old (old old' : Frame) (a : Dst) (nm : CalendarTime) (b : Dst) :
    encodeCore old a nm b = encodeCore old' a nm b := by
  have hdata : ∀ q, q < 59 → q ≠ 28 → q ≠ 35 → q ≠ 58 →
      (encodeCore old a nm b).getLsbD q = (encodeCore old' a nm b).getLsbD q := by
    intro q h59 h28 h35 h58
    have hcov : ∃ g ∈ dataGroups a nm b, g.pos ≤ q ∧ q < g.pos + g.width := by
      simp only [dataGroups, List.mem_cons, List.not_mem_nil, or_false, exists_eq_or_imp, exists_eq_left, groupM,
        groupRSV, groupR, groupA1, groupZ1, groupZ2, groupA2, groupS, groupMinU, groupMinT, groupHourU, groupHourT,
        groupDayU, groupDayT, groupWday, groupMonU, groupMonT, groupYearU, groupYearT]
      omega
    obtain ⟨g, hg, h1, h2⟩ := hcov
    have hq : q = g.pos + (q - g.pos) := by omega
    rw [hq, getLsbD_encodeCore_group old a nm b g _ hg (by omega),
      getLsbD_encodeCore_group old' a nm b g _ hg (by omega)]
  apply BitVec.eq_of_getLsbD_eq
  intro q hq
  by_cases h28 : q = 28
  · subst h28
    rw [encodeCore_p1, encodeCore_p1, onesIn_congr _ _ 21 28 fun p _ _ => hdata p (by omega) (by omega) (by omega) (by omega)]
  by_cases h35 : q = 35
  · subst h35
    rw [encodeCore_p2, encodeCore_p2, onesIn_congr _ _ 29 35 fun p _ _ => hdata p (by omega) (by omega) (by omega) (by omega)]
  by_cases h58 : q = 58
  · subst h58
    rw [encodeCore_p3, encodeCore_p3, onesIn_congr _ _ 36 58 fun p _ _ => hdata p (by omega) (by omega) (by omega) (by omega)]
  exact hdata q hq h28 h35 h58

end Sys2Proof.Machine
end

