-- ==== Sys2Proof/Laws/Exec.lean ====
section
/-! SUPPORT. What an operation can do: one lemma for each, cited instead of unfolding the meaning. -/

namespace Sys2Proof.Machine

open Sys2Proof.Safety

/-- A command is accepted exactly when nothing is in progress. -/
theorem accept_next (s s' : State) (out : Out) : accept s out = .next s' ↔ s.inflight = none ∧ out = .next s' := by
  unfold accept
  cases h : s.inflight <;> simp [State.busy, h]

/-- What a completed ENCODE holds, field by field. -/
@[simp] theorem finishEncode_frame (a : Dst) (nm : CalendarTime) (b : Dst) (s : State) :
    (finishEncode a nm b s).frame = encodeCore s.frame a nm b := rfl
@[simp] theorem finishEncode_status (a : Dst) (nm : CalendarTime) (b : Dst) (s : State) :
    (finishEncode a nm b s).status =
      statusOf nm ((encodeCore s.frame a nm b).getLsbD 16) ((encodeCore s.frame a nm b).getLsbD 17) := rfl
@[simp] theorem finishEncode_frameValid (a : Dst) (nm : CalendarTime) (b : Dst) (s : State) :
    (finishEncode a nm b s).frameValid = true := rfl
@[simp] theorem finishEncode_inflight (a : Dst) (nm : CalendarTime) (b : Dst) (s : State) :
    (finishEncode a nm b s).inflight = none := rfl
@[simp] theorem finishEncode_done (a : Dst) (nm : CalendarTime) (b : Dst) (s : State) :
    (finishEncode a nm b s).done = true := rfl
@[simp] theorem finishEncode_pbit (a : Dst) (nm : CalendarTime) (b : Dst) (s : State) :
    (finishEncode a nm b s).pbit = s.pbit := rfl
@[simp] theorem finishEncode_pbitValid (a : Dst) (nm : CalendarTime) (b : Dst) (s : State) :
    (finishEncode a nm b s).pbitValid = s.pbitValid := rfl
@[simp] theorem finishEncode_platform (a : Dst) (nm : CalendarTime) (b : Dst) (s : State) :
    (finishEncode a nm b s).platform = s.platform := rfl
@[simp] theorem finishEncode_script (a : Dst) (nm : CalendarTime) (b : Dst) (s : State) :
    (finishEncode a nm b s).script = s.script := rfl
@[simp] theorem finishEncode_seen (a : Dst) (nm : CalendarTime) (b : Dst) (s : State) :
    (finishEncode a nm b s).seen = s.seen := rfl
@[simp] theorem finishEncode_draws (a : Dst) (nm : CalendarTime) (b : Dst) (s : State) :
    (finishEncode a nm b s).draws = s.draws := rfl

/-- ENCODE answers exactly on its domain, with the completed state (`41_encode.md` R113, R110). -/
theorem exec_encode_next (t : CalendarTime) (s s' : State) :
    exec (.encode t) s = .next s' ↔
      ∃ nm nh, EncodeReady s t nm nh ∧ s' = finishEncode t.dst nm nh.dst s := by
  simp only [exec, execEncode, accept_next]
  constructor
  · rintro ⟨hi, h⟩
    split at h
    · rename_i ht
      unfold encodeAnswered at h
      split at h
      · rename_i nm nh hm hh
        split at h
        · rename_i hl
          rw [Bool.and_eq_true, decide_eq_true_eq] at hl
          exact ⟨nm, nh, ⟨hi, ht, hm, hh, hl.1, hl.2⟩, by injection h with h; exact h.symm⟩
        · cases h
      · cases h
      · cases h
    · cases h
  · rintro ⟨nm, nh, ⟨hi, ht, hm, hh, hl, hd⟩, rfl⟩
    refine ⟨hi, ?_⟩
    rw [if_pos ht, hm, hh]
    simp [encodeAnswered, hl, hd, nextHourDst]

/-- The whole effect of PARITY, and when it has one (`40_parity.md` R103, R104). -/
theorem exec_parity_next (b : Frame) (lo hi : BitVec 6) (s s' : State) :
    exec (.parity b lo hi) s = .next s' ↔ ParityReady s lo hi ∧ s' = finishParity b lo hi s := by
  simp only [exec, execParity, accept_next, legalRange, Bool.and_eq_true, decide_eq_true_eq]
  constructor
  · rintro ⟨h, h'⟩
    split at h'
    · rename_i hl
      exact ⟨⟨h, hl.1, hl.2⟩, by injection h' with h'; exact h'.symm⟩
    · cases h'
  · rintro ⟨⟨h, h1, h2⟩, rfl⟩
    exact ⟨h, by rw [if_pos ⟨h1, h2⟩]⟩

/-- A frame in the format of a legal NM has the shape and the status every readable frame has (`41_encode.md` R136). -/
theorem shape_of_format (f : Frame) (a : Dst) (nm : CalendarTime) (b : Dst) (hl : LegalFields nm)
    (h : FrameFormat f a nm b) : FrameShape f := by
  have cells : ∀ p n, field f p n = 0 → ∀ k, k < n → f.getLsbD (p + k) = false := by
    intro p n h0 k hk
    have h0' : f.extractLsb' p n = 0#n := BitVec.eq_of_toNat_eq (by simpa [field] using h0)
    have := congrArg (fun v => v.getLsbD k) h0'
    simpa [hk] using this
  obtain ⟨hm, hrsv, hr, ha1, hz1, hz2, ha2, hs, hmu, hmt, hp1, hhu, hht, hp2, hdu, hdt, hw, hou, hot, hyu, hyt, hp3⟩ := h
  obtain ⟨l1, l2, l3, l4, l5, l6⟩ := hl
  have hwd := frameWeekday_pos nm.dow
  rw [frameWeekday_toNat] at hwd
  have par1 : ∀ x q, (f.getLsbD x = true ↔ q = 1) → f.getLsbD x = decide (q = 1) := fun x q hq => by
    by_cases e : q = 1
    · simp only [e, decide_true]; exact hq.mpr e
    · simp only [e, decide_false]
      exact Bool.eq_false_iff.mpr fun c => e (hq.mp c)
  constructor
  case zeros =>
    intro p hp
    rcases Nat.lt_or_ge p 1 with h0 | h0
    · have := cells 0 1 hm p h0; simpa using this
    rcases Nat.lt_or_ge p 15 with h1 | h1
    · have := cells 1 14 hrsv (p - 1) (by omega); rwa [show 1 + (p - 1) = p by omega] at this
    · have := cells 15 1 hr (p - 15) (by omega); rwa [show 15 + (p - 15) = p by omega] at this
  case a2 => exact cells 19 1 ha2 0 (by omega)
  case s =>
    have h0' : f.extractLsb' 20 1 = 1#1 := BitVec.eq_of_toNat_eq (by simpa [field] using hs)
    have := congrArg (fun v => v.getLsbD 0) h0'
    simpa using this
  case zone => exact hz2
  case evenMin => exact onesIn_with_parity f 21 28 (by omega) (par1 _ _ hp1)
  case evenHour => exact onesIn_with_parity f 29 35 (by omega) (par1 _ _ hp2)
  case evenDate => exact onesIn_with_parity f 36 58 (by omega) (par1 _ _ hp3)
  all_goals omega

/-- The STATUS of an encoded minute reports the frame (`41_encode.md` R137). -/
theorem status_of_format (f : Frame) (a : Dst) (nm : CalendarTime) (b : Dst) (h : FrameFormat f a nm b) :
    StatusMatches f (statusOf nm (f.getLsbD 16) (f.getLsbD 17)) := by
  obtain ⟨hm, hrsv, hr, ha1, hz1, hz2, ha2, hs, hmu, hmt, hp1, hhu, hht, hp2, hdu, hdt, hw, hou, hot, hyu, hyt, hp3⟩ := h
  constructor
  case minute => simp only [minuteOf, statusOf]; omega
  case hour => simp only [hourOf, statusOf]; omega
  case day => simp only [dayOf, statusOf]; omega
  case wday => simp only [weekdayOf, statusOf, frameWeekday_toNat]; exact hw
  case month => simp only [monthOf, statusOf]; omega
  case year => simp only [yearOf, statusOf]; omega
  case a1 => rfl
  case z1 => rfl

/-- The STATUS of a legal NM is legal. -/
theorem statusLegal_of_legal (nm : CalendarTime) (x y : Bool) (h : LegalFields nm) : StatusLegal (statusOf nm x y) :=
  ⟨h.minute, h.hour, h.day, frameWeekday_pos nm.dow, h.month⟩

end Sys2Proof.Machine
end

