-- ==== Sys2Proof/Laws/Clock.lean ====
section
/-! SUPPORT. What one clock edge and one step can do: every next state is one of a few named updates. -/

namespace Sys2Proof.Machine

open Sys2Proof.Safety

/-- Every next state of a clock edge, by what the edge did. -/
inductive EdgeResult (p : Pins) (s : State) : State → Prop where
  | reset (h : p.rst = true) : EdgeResult p s (resetBlock s)
  | idle (h : s.inflight = none) : EdgeResult p s (idleCycle s)
  /-- An ENCODE is accepted, or stays in progress, with legal operands and answers if those before were legal. -/
  | holdEncode (t : CalendarTime) (ph : EncodePhase)
      (by_ : p.start = true ∧ p.op = 0 ∨ encodeInFlight s = true)
      (legal : (∀ f, s.inflight = some f → InFlightLegal f) → InFlightLegal (.encode t ph)) :
      EdgeResult p s (holdEncode s t ph)
  /-- An ENCODE in progress completes. -/
  | doneEncode (t nm : CalendarTime) (b : Dst) (h : encodeInFlight s = true)
      (legal : (∀ f, s.inflight = some f → InFlightLegal f) → inRangeCT nm = true) :
      EdgeResult p s (finishEncode t.dst nm b s)
  /-- A PARITY is accepted, or stays in progress. -/
  | holdParity (b : Frame) (lo hi : BitVec 6) (n : Nat)
      (by_ : p.start = true ∧ p.op = 1 ∧ s.inflight = none ∨ parityInFlight s = true)
      (legal : (∀ f, s.inflight = some f → InFlightLegal f) → InFlightLegal (.parity b lo hi n)) :
      EdgeResult p s (holdParity s b lo hi n)
  /-- A PARITY completes. -/
  | doneParity (b : Frame) (lo hi : BitVec 6)
      (by_ : p.start = true ∧ p.op = 1 ∧ s.inflight = none ∨ parityInFlight s = true) :
      EdgeResult p s (finishParity b lo hi s)

/-- A PARITY that works completes or stays in progress. -/
theorem edgeResult_workParity (p : Pins) (s : State) (b : Frame) (lo hi : BitVec 6) (n : Nat)
    (by_ : p.start = true ∧ p.op = 1 ∧ s.inflight = none ∨ parityInFlight s = true)
    (legal : (∀ f, s.inflight = some f → InFlightLegal f) → legalRange lo hi = true) :
    EdgeResult p s (workParity b lo hi s n) := by
  cases n with
  | zero => exact .doneParity b lo hi by_
  | succ n => exact .holdParity b lo hi n by_ legal

/-- An ENCODE that works completes or stays in progress. -/
theorem edgeResult_workEncode (p : Pins) (s : State) (t nm : CalendarTime) (d : Dst) (n : Nat)
    (h : encodeInFlight s = true)
    (legal : (∀ f, s.inflight = some f → InFlightLegal f) →
      inRangeCT t = true ∧ inRangeCT nm = true ∧ d ≠ .reserved) :
    EdgeResult p s (workEncode t nm d s n) := by
  cases n with
  | zero => exact .doneEncode t nm d h fun hl => (legal hl).2.1
  | succ n => exact .holdEncode t _ (.inr h) legal

/-- A cycle has no late acknowledge exactly when its acknowledge, if any, is timely. -/
theorem lateAck_eq_false (p : Pins) : lateAck p = false ↔ (p.taAck = true → p.taLate = false) := by
  simp [lateAck]

/-- A clock edge that answers did one of the six things. -/
theorem clockEdge_next (p : Pins) (s s' : State) (h : clockEdge p s = .next s') : EdgeResult p s s' := by
  unfold clockEdge at h
  split at h
  · rename_i hr; injection h with h; subst h; exact .reset hr
  split at h
  · cases h
  split at h
  · rename_i f hf
    split at h
    · cases h
    rename_i hs
    cases f with
    | parity b lo hi n =>
      simp only [advanceInFlight] at h
      split at h
      · cases h
      injection h with h; subst h
      exact edgeResult_workParity p s b lo hi n (.inr ((parityInFlight_iff s).mpr ⟨_, _, _, _, hf⟩)) fun hl => hl _ hf
    | encode t ph =>
      have hin : encodeInFlight s = true := (encodeInFlight_iff s).mpr ⟨_, _, hf⟩
      have stay : ∀ ph', (InFlightLegal (.encode t ph) → InFlightLegal (.encode t ph')) →
          EdgeResult p s (holdEncode s t ph') := fun ph' hp => .holdEncode t ph' (.inr hin) fun hl => hp (hl _ hf)
      simp only [advanceInFlight] at h
      unfold advanceEncode at h
      split at h
      · split at h
        · cases h
        · injection h with h; subst h; exact stay _ id
      · split at h
        · unfold takeNextMinute at h
          split at h
          · cases h
          · split at h
            · rename_i hr
              injection h with h; subst h; exact stay _ fun ht => ⟨ht, hr⟩
            · cases h
        · injection h with h; subst h; exact stay _ id
      · split at h
        · cases h
        · injection h with h; subst h; exact stay _ id
      · split at h
        · unfold takeNextHour at h
          split at h
          · cases h
          · split at h
            · cases h
            · rename_i hr
              injection h with h; subst h
              exact edgeResult_workEncode p s t _ _ _ hin fun hl => ⟨(hl _ hf).1, (hl _ hf).2, hr⟩
        · injection h with h; subst h; exact stay _ id
      · split at h
        · cases h
        · injection h with h; subst h
          exact edgeResult_workEncode p s t _ _ _ hin fun hl => hl _ hf
  · rename_i hi
    split at h
    · cases h
    split at h
    · rename_i hs
      unfold acceptCommand at h
      split at h
      · rename_i hop
        unfold acceptEncode at h
        split at h
        · cases h
        · split at h
          · rename_i hr
            injection h with h; subst h
            exact .holdEncode _ _ (.inl ⟨hs, hop⟩) fun _ => hr
          · cases h
      · rename_i hop
        have hop1 : p.op = 1 := by
          have := p.op.isLt
          have h0 : p.op.toNat ≠ 0 := fun e => hop (BitVec.eq_of_toNat_eq (by simpa using e))
          exact BitVec.eq_of_toNat_eq (by simp; omega)
        unfold acceptParity at h
        split at h
        · split at h
          · rename_i hr
            injection h with h; subst h
            exact edgeResult_workParity p s _ _ _ _ (.inl ⟨hs, hop1, hi⟩) fun _ => hr
          · cases h
        all_goals cases h
    · injection h with h; subst h; exact .idle hi

/-- Everything a read can do. -/
inductive ReadResult : ReadItem → State → State → Prop where
  | frame {s : State} (readable : frameReadable s = true) : ReadResult .frame s (record s (.frame s.frame))
  | cells {s : State} (p n : Nat) (readable : frameReadable s = true) (inside : p + n ≤ 59) :
      ReadResult (.cells p n) s (record s (.cells p n (memRead s.frame p n)))
  | status {s : State} (readable : frameReadable s = true) (idle : s.busy = false) :
      ReadResult .status s (record s (.status true s.status))
  | statusOpen {s : State} (readable : frameReadable s = true) (busy : s.busy = true) :
      ReadResult .status s (recordDrawn s (.status false (Config.freeStatus s.draws)))
  | pbit {s : State} (readable : pbitReadable s = true) : ReadResult .pbit s (record s (.pbit s.pbit))
  | frameValid {s : State} : ReadResult .frameValid s (record s (.frameValid s.frameValid))
  | pbitValid {s : State} : ReadResult .pbitValid s (record s (.pbitValid s.pbitValid))
  | busy {s : State} : ReadResult .busy s (record s (.busy s.busy))
  | done {s : State} : ReadResult .done s (record s (.done s.done))
  | taRequest {s : State} : ReadResult .taRequest s (record s (.taRequest (taRequest s)))
  | taReq {s : State} : ReadResult .taReq s (record s (.taReq (taRequest s).isSome))
  | taSel {s : State} (a : Advance) (stated : statedTaSel s = some a) :
      ReadResult .taSel s (record s (.taSel true a))
  | taSelOpen {s : State} (notStated : statedTaSel s = none) :
      ReadResult .taSel s (recordDrawn s (.taSel false (Config.freeAdvance s.draws)))
  | taT {s : State} (w : CtWord) (stated : statedTaT s = some w) : ReadResult .taT s (record s (.taT true w))
  | taTOpen {s : State} (notStated : statedTaT s = none) :
      ReadResult .taT s (recordDrawn s (.taT false (Config.freeCtWord s.draws)))

/-- What a read leaves: one observation more, and a free value drawn or not. -/
theorem readResult_frame {r : ReadItem} {s s' : State} (h : ReadResult r s s') :
    ∃ o, s' = record s o ∨ s' = recordDrawn s o := by
  cases h <;> first | exact ⟨_, .inl rfl⟩ | exact ⟨_, .inr rfl⟩

/-- Every next state of a step, by what the host's next action did; `s` is the state with the action consumed. -/
inductive StepResult (s : State) : State → Prop where
  | edge (p : Pins) (r : State) (s' : State)
      (by_ : (s.script = [] ∧ p = idlePins ∧ r = s) ∨ ∃ rest, s.script = .clock p :: rest ∧ r = setScript s rest)
      (h : EdgeResult p r s') : StepResult s s'
  | reset (rest : List HostAction) (h : s.script = .reset :: rest) :
      StepResult s (resetBlock (setScript s rest))
  | encode (c : CommandPorts) (rest : List HostAction) (t nm nh : CalendarTime) (h : s.script = .command c :: rest)
      (hd : decode c = .encode t) (ready : EncodeReady (setScript s rest) t nm nh) :
      StepResult s (finishEncode t.dst nm nh.dst (setScript s rest))
  | parity (c : CommandPorts) (rest : List HostAction) (b : Frame) (lo hi : BitVec 6) (h : s.script = .command c :: rest)
      (hd : decode c = .parity b lo hi) (ready : ParityReady (setScript s rest) lo hi) :
      StepResult s (finishParity b lo hi (setScript s rest))
  | read (r : ReadItem) (s' : State) (rest : List HostAction) (h : s.script = .read r :: rest)
      (result : ReadResult r (setScript s rest) s') : StepResult s s'

/-- A read of a port records its stated value, or draws a free one. -/
theorem readPort_result {α : Type} (stated : Option α) (free : Nat → α) (f : Bool → α → Observation) (s : State) :
    (∃ v, stated = some v ∧ readPort stated free f s = record s (f true v)) ∨
      (stated = none ∧ readPort stated free f s = recordDrawn s (f false (free s.draws))) := by
  cases stated with
  | none => exact .inr ⟨rfl, rfl⟩
  | some v => exact .inl ⟨v, rfl, rfl⟩

/-- A guarded read answers exactly when the read is allowed. -/
theorem readGuarded_next (readable : Bool) (s s' : State) :
    readGuarded readable s = .next s' ↔ readable = true ∧ s' = s := by
  cases readable
  · exact ⟨nofun, fun h => nomatch h.1⟩
  · exact ⟨fun h => by injection h with h; exact ⟨rfl, h.symm⟩, fun h => by rw [h.2]; rfl⟩

/-- A read that answers recorded one of the named things, under the condition that allows it. -/
theorem hostRead_next (r : ReadItem) (s s' : State) (h : hostRead r s = .next s') : ReadResult r s s' := by
  cases r with
  | frame => obtain ⟨hr, rfl⟩ := (readGuarded_next _ _ _).mp h; exact .frame hr
  | cells p n =>
    simp only [hostRead] at h
    split at h
    · rename_i hp
      obtain ⟨hr, rfl⟩ := (readGuarded_next _ _ _).mp h; exact .cells p n hr hp
    · cases h
  | status =>
    obtain ⟨hr, rfl⟩ := (readGuarded_next _ _ _).mp h
    unfold statedStatus
    by_cases hb : s.busy = true
    · rw [if_pos hb]; exact .statusOpen hr hb
    · rw [if_neg hb]; exact .status hr (by simpa using hb)
  | pbit => obtain ⟨hr, rfl⟩ := (readGuarded_next _ _ _).mp h; exact .pbit hr
  | frameValid => injection h with h; subst h; exact .frameValid
  | pbitValid => injection h with h; subst h; exact .pbitValid
  | busy => injection h with h; subst h; exact .busy
  | done => injection h with h; subst h; exact .done
  | taRequest => injection h with h; subst h; exact .taRequest
  | taReq => injection h with h; subst h; exact .taReq
  | taSel =>
    injection h with h; subst h
    rcases readPort_result (statedTaSel s) Config.freeAdvance .taSel s with ⟨v, hv, e⟩ | ⟨hv, e⟩ <;> rw [e]
    · exact .taSel v hv
    · exact .taSelOpen hv
  | taT =>
    injection h with h; subst h
    rcases readPort_result (statedTaT s) Config.freeCtWord .taT s with ⟨v, hv, e⟩ | ⟨hv, e⟩ <;> rw [e]
    · exact .taT v hv
    · exact .taTOpen hv

/-- A step that answers did one of the named things. -/
theorem step_next (s s' : State) (h : step s = .next s') : StepResult s s' := by
  unfold step at h
  split at h
  · rename_i hs; exact .edge idlePins s s' (.inl ⟨hs, rfl, rfl⟩) (clockEdge_next _ _ _ h)
  · rename_i a rest hs
    unfold runAction at h
    split at h
    · injection h with h; subst h; exact .reset rest hs
    · rename_i c
      cases hd : decode c with
      | encode t =>
        rw [hd] at h
        obtain ⟨nm, nh, hr, rfl⟩ := (exec_encode_next t _ _).mp h
        exact .encode c rest t nm nh hs hd hr
      | parity b lo hi =>
        rw [hd] at h
        obtain ⟨hr, rfl⟩ := (exec_parity_next b lo hi _ _).mp h
        exact .parity c rest b lo hi hs hd hr
    · rename_i r
      exact .read r s' rest hs (hostRead_next _ _ _ h)
    · rename_i p; exact .edge p _ s' (.inr ⟨rest, hs, rfl⟩) (clockEdge_next _ _ _ h)

/-- `steps` is the run of the host's interface. -/
theorem steps_eq_run (k : Nat) (s : State) : steps k s = Host.Core.run Sys2Proof.core k s := by
  unfold Sys2Proof.core
  induction k generalizing s with
  | zero => rfl
  | succ k ih =>
    rw [steps, Host.Core.run]
    dsimp only
    cases step s with
    | next s' => exact ih s'
    | fault r => rfl
    | refused r => rfl

/-- The first of several steps. -/
theorem steps_succ (k : Nat) (s s' : State) (h : step s = .next s') : steps (k + 1) s = steps k s' := by
  rw [steps, h]

/-- A run of `a + b` steps whose first `a` answer. -/
theorem steps_add (a b : Nat) (s s' : State) (h : steps a s = .next s') : steps (a + b) s = steps b s' := by
  induction a generalizing s with
  | zero => rw [steps] at h; injection h with h; rw [h, Nat.zero_add]
  | succ a ih =>
    rw [show a + 1 + b = a + b + 1 by omega]
    rw [steps] at h ⊢
    cases hs : step s with
    | next t => rw [hs] at h; exact ih t h
    | fault r => rw [hs] at h; cases h
    | refused r => rw [hs] at h; cases h

end Sys2Proof.Machine
end

