-- ==== Sys2Proof/Laws/PerInstr.lean ====
section
/-! SUPPORT. Statements for all operations, one lemma per constructor. -/

namespace Sys2Proof.Laws

/-- The ports of an operation carry its `op` code, and a port outside its format carries 0 (`30_encoding.md` R70, R71). -/
def PortFormat.Statement (i : Instr) : Prop :=
  match i with
  | .encode t => (encode i).op = 0 ∧ (encode i).t = wordOfCt t ∧
      (encode i).pdata = 0 ∧ (encode i).plo = 0 ∧ (encode i).phi = 0
  | .parity b lo hi => (encode i).op = 1 ∧ (encode i).t = 0 ∧
      (encode i).pdata = b ∧ (encode i).plo = lo ∧ (encode i).phi = hi

theorem PortFormat.encode (t : CalendarTime) : PortFormat.Statement (.encode t) := ⟨rfl, rfl, rfl, rfl, rfl⟩

theorem PortFormat.parity (b : Frame) (lo hi : BitVec 6) : PortFormat.Statement (.parity b lo hi) :=
  ⟨rfl, rfl, rfl, rfl, rfl⟩

end Sys2Proof.Laws
end

