-- ==== Sys2Proof/WellFormed.lean ====
section
/-! DEFINITION. When an operation's operands are legal (`30_encoding.md` R81): the checks the operation itself makes before
it has a meaning. -/

namespace Sys2Proof

/-- The operands are legal: T in range for ENCODE (`41_encode.md` R113 (a)), 0 ≤ plo ≤ phi ≤ 59 for PARITY
(`40_parity.md` R104). -/
def Instr.wf : Instr → Bool
  | .encode t => Machine.inRangeCT t
  | .parity _ lo hi => Machine.legalRange lo hi

end Sys2Proof
end

