-- ==== Sys2Proof/Tests/Slice0.lean ====
section
/-! SUPPORT. The model's own tests, their expected results taken from spec/95_test_vectors.md or worked out by hand from the
cited rule, and one witness for the hypotheses of each statement. -/

namespace Sys2Proof.Tests

open Sys2Proof.Machine Sys2Proof.Safety

/-! ## Well-formedness: one ill-formed operation for each check (`30_encoding.md` R81) -/

theorem test_wf_accepts : (Instr.encode ⟨59, 23, 31, 6, 12, 4095, .unknown⟩).wf = true ∧
    (Instr.encode ⟨0, 0, 1, 0, 1, 0, .notInEffect⟩).wf = true ∧
    (Instr.parity 0 0 59).wf = true ∧ (Instr.parity 0 59 59).wf = true := by decide
theorem test_wf_minute_60 : (Instr.encode ⟨60, 12, 15, 6, 6, 2024, .inEffect⟩).wf = false := by decide
theorem test_wf_hour_24 : (Instr.encode ⟨0, 24, 15, 6, 6, 2024, .inEffect⟩).wf = false := by decide
theorem test_wf_day_0 : (Instr.encode ⟨0, 12, 0, 6, 6, 2024, .inEffect⟩).wf = false := by decide
theorem test_wf_dow_7 : (Instr.encode ⟨0, 12, 15, 7, 6, 2024, .inEffect⟩).wf = false := by decide
theorem test_wf_month_0 : (Instr.encode ⟨0, 12, 15, 6, 0, 2024, .inEffect⟩).wf = false := by decide
theorem test_wf_month_13 : (Instr.encode ⟨0, 12, 15, 6, 13, 2024, .inEffect⟩).wf = false := by decide
theorem test_wf_dst_3 : (Instr.encode ⟨0, 12, 15, 6, 6, 2024, .reserved⟩).wf = false := by decide
theorem test_wf_range_reversed : (Instr.parity 0 5 4).wf = false := by decide
theorem test_wf_range_past_58 : (Instr.parity 0 60 60).wf = false := by decide

/-! ## Decoding: words written out bit by bit from `30_encoding.md` R72 -/

/-- dst 00, year 011111101000, month 0011, dow 000, day 11111, hour 00001, minute 111011: 2024-03-31 01:59 (worked example
of R72). -/
theorem test_decode_encode_word : decode ⟨0, 0b0001111110100000110001111100001111011, 0x7FFFFFFFFFFFFFF, 63, 63⟩ =
    .encode ⟨59, 1, 31, 0, 3, 2024, .notInEffect⟩ := by decide
/-- dst 10, year 000001100100, month 1100, dow 110, day 00001, hour 10111, minute 000001. -/
theorem test_decode_encode_fields : decode ⟨0, 0b1000000110010011001100000110111000001, 0, 0, 0⟩ =
    .encode ⟨1, 23, 1, 6, 12, 100, .unknown⟩ := by decide
/-- `op` = 1, positions 0, 2, 3 set, lo = 0, hi = 4 (`40_parity.md` R103). -/
theorem test_decode_parity_ports : decode ⟨1, 0x1FFFFFFFFF, 0b1101, 0, 4⟩ = .parity 0b1101 0 4 := by decide
theorem test_decode_table_words :
    decodeTableWord 8 0 = some (.encode ⟨0, 0, 0, 0, 0, 0, .notInEffect⟩) ∧ decodeTableWord 8 1 = some (.parity 0 0 0) := by
  decide

/-! ## Operations -/

/-- FRAME and STATUS after an operation. -/
def resultOf (o : Out) : Option (Frame × Status) :=
  match o with
  | .next s => some (s.frame, s.status)
  | .fault _ => none
  | .refused _ => none

/-- PBIT after an operation. -/
def pbitOf (o : Out) : Option Bool :=
  match o with
  | .next s => some s.pbit
  | .fault _ => none
  | .refused _ => none

/-- Why an operation was refused. -/
def refusalOf (o : Out) : Option Refusal :=
  match o with
  | .next _ => none
  | .fault _ => none
  | .refused r => some r

/-- A state attached to an instance that answers NM and NH for T; FRAME starts all ones. -/
def answering (t nm nh : CalendarTime) : State :=
  { State.reset with
    frame := 0x7FFFFFFFFFFFFFF
    platform := .listed [⟨t, .minute, some nm⟩, ⟨t, .hour, some nh⟩] }

/-- The T, NM and NH of vector V-A. -/
def tA : CalendarTime := ctOfWord 0x03F418F87B
def nmA : CalendarTime := ctOfWord 0x0BF418F880
def nhA : CalendarTime := ctOfWord 0x0BF418F8BB

set_option maxRecDepth 100000 in
/-- Vector V-A. -/
theorem test_encode_vector_A : resultOf (exec (.encode tA) (answering tA nmA nhA)) =
    some (0x0907F1840130000, ⟨2024, 3, 31, 7, 2, 0, true, true⟩) := by decide
set_option maxRecDepth 100000 in
/-- Vector V-R: the largest digits. -/
theorem test_encode_vector_R :
    resultOf (exec (.encode (ctOfWord 0x0C0FCDECFA))
      (answering (ctOfWord 0x0C0FCDECFA) (ctOfWord 0x0C0FCDECFB) (ctOfWord 0x0C0FCDECFA))) =
    some (0x1E5369B2B320000, ⟨2079, 9, 29, 5, 19, 59, false, true⟩) := by decide
/-- Part 3: CHK.HOUR finds a flipped cell in the hour block of V-A's frame. -/
theorem test_parity_detects_a_flip : pbitOf (exec (.chkHour 0x0907F1800130000) State.reset) = some true := by decide
/-- Part 3: an empty range at the top end is legal; past it is refused. -/
theorem test_parity_top_end : pbitOf (exec (.parity 0xD 59 59) State.reset) = some false ∧
    refusalOf (exec (.parity 0xD 60 60) State.reset) = some .illFormedRange := by decide

/-- Part 5: century, leap-day and year-limit rollovers of the reference instance. -/
theorem test_wallAdd_century : wallAdd 0 ⟨59, 23, 31, 5, 12, 1999, .notInEffect⟩ .minute =
    some ⟨0, 0, 1, 6, 1, 2000, .notInEffect⟩ := by decide
theorem test_wallAdd_not_leap : wallAdd 0 ⟨59, 23, 28, 0, 2, 2100, .notInEffect⟩ .hour =
    some ⟨59, 0, 1, 1, 3, 2100, .notInEffect⟩ := by decide
theorem test_wallAdd_year_limit : wallAdd 0 ⟨59, 23, 31, 0, 12, 4095, .notInEffect⟩ .minute = none := by decide
/-- Part 4: a date that does not exist cannot be resolved by the reference instance. -/
theorem test_reference_refuses_february_31 : refusalOf (exec (.encode ⟨0, 12, 31, 6, 2, 2024, .notInEffect⟩)
    { State.reset with platform := .reference 0 [] }) = some .timeArithmeticUnresolved := by decide

/-- The table word of PARITY is the first operation after reset; that of ENCODE carries the CT word 0, which the spec calls
illegal (day 0, `30_encoding.md` R81). -/
theorem test_first_step_after_reset : pbitOf (step (State.reset.withFetchWord 8 1)) = some false ∧
    refusalOf (step (State.reset.withFetchWord 8 0)) = some .invalidCalendarTime := by decide

/-- R190: after a reset in the middle of an ENCODE, the acknowledge of the abandoned request is refused while the next ENCODE
awaits its own answer, and its own answer is taken. -/
theorem test_late_acknowledge :
    refusalOf (clockEdge { answerPins 0x0BF418F880 with taLate := true }
      (holdEncode (resetBlock (holdEncode State.reset tA .wait60)) tA .wait60)) = some .protocolViolation ∧
    refusalOf (clockEdge (answerPins 0x0BF418F880)
      (holdEncode (resetBlock (holdEncode State.reset tA .wait60)) tA .wait60)) = none := by decide

/-! ## Witnesses: a state and operands that meet the hypotheses of each statement -/

theorem witness_encodeReady : EncodeReady (answering tA nmA nhA) tA nmA nhA :=
  ⟨rfl, by decide, by decide, by decide, by decide, by decide⟩

theorem witness_parityReady : ParityReady State.reset 0 59 ∧ ParityReady State.reset 0 0 ∧ ParityReady State.reset 59 59 :=
  ⟨⟨rfl, by decide, by decide⟩, ⟨rfl, by decide, by decide⟩, ⟨rfl, by decide, by decide⟩⟩

/-- The state V-A leaves. -/
def afterA : State := finishEncode tA.dst nmA nhA.dst (answering tA nmA nhA)

theorem witness_encode_answers : exec (.encode tA) (answering tA nmA nhA) = .next afterA :=
  (exec_encode_next _ _ _).mpr ⟨nmA, nhA, witness_encodeReady, rfl⟩

theorem witness_PortsOfTheSelectedFormatDecide :
    (⟨0, 5, 7, 1, 2⟩ : CommandPorts).op = 0 ∧ (⟨1, 5, 7, 1, 2⟩ : CommandPorts).op = 1 := by decide

theorem witness_StepRunsTheCommandedOperation :
    (State.reset.withFetchWord 8 1).script = .command (tablePorts 8 1) :: [] := rfl

theorem witness_PlacedWordIsTheNextOperation :
    decodeTableWord 1 0 = some (.encode ⟨0, 0, 0, 0, 0, 0, .notInEffect⟩) ∧ decodeTableWord 1 1 = some (.parity 0 0 0) := by
  decide

/-- Reset as an action, and as a clock edge in the middle of an ENCODE with every other strobe high. -/
theorem witness_ResetClearsFlagsAndAbandonsTheOperation :
    (setScript State.reset [.reset]).script = .reset :: [] ∧
    (setScript (holdEncode State.reset tA .wait60) [.clock { idlePins with rst := true, start := true, taAck := true }]).script =
      .clock { idlePins with rst := true, start := true, taAck := true } :: [] ∧
    ({ idlePins with rst := true, start := true, taAck := true } : Pins).rst = true := ⟨rfl, rfl, rfl⟩

theorem witness_NothingHappensWithoutACommand :
    State.reset.inflight = none ∧ State.reset.script = [] ∧
    (setScript State.reset [.clock idlePins]).script = .clock idlePins :: [] ∧
    idlePins.rst = false ∧ idlePins.start = false ∧ idlePins.taAck = false := ⟨rfl, rfl, rfl, rfl, rfl, rfl⟩

/-- Every read of a state that holds both results answers; the last cell and the empty read at the top are inside. -/
theorem witness_ReadRecordsAndChangesNothingElse :
    ∀ r ∈ [ReadItem.frame, .status, .pbit, .cells 58 1, .cells 59 0, .cells 0 59, .frameValid, .pbitValid, .busy, .done,
      .taRequest, .taReq, .taSel, .taT], ∃ t, step (setScript (finishParity 0xD 0 4 afterA) [.read r]) = .next t := by
  intro r hr
  simp only [List.mem_cons, List.not_mem_nil, or_false] at hr
  rcases hr with rfl | rfl | rfl | rfl | rfl | rfl | rfl | rfl | rfl | rfl | rfl | rfl | rfl | rfl <;> exact ⟨_, rfl⟩

/-- A request cycle, a waiting cycle and an idle block; STATUS read while a PARITY is in progress. -/
theorem witness_ReadOfOpenPorts :
    taRequest (holdEncode State.reset tA (.request3600 nmA)) = some (.hour, wordOfCt tA) ∧
    taRequest (holdEncode State.reset tA .wait60) = none ∧
    (holdEncode State.reset tA .wait60).inflight = some (.encode tA .wait60) ∧ encodeInFlight State.reset = false ∧
    (holdParity afterA 0xD 0 4 0).busy = true ∧
    ∃ t, step (setScript (holdParity afterA 0xD 0 4 0) [.read .status]) = .next t := ⟨rfl, rfl, rfl, rfl, rfl, _, rfl⟩

/-- What a read recorded last. -/
def seenOf (o : Out) : Option Observation :=
  match o with
  | .next s => s.seen.head?
  | .fault _ => none
  | .refused _ => none

/-- R21: `ta_t` is the T of the ENCODE in progress, also in a cycle without a request. -/
theorem test_ta_t_while_waiting :
    seenOf (hostRead .taT (holdEncode State.reset tA .wait60)) = some (.taT true 0x03F418F87B) ∧
    seenOf (hostRead .taReq (holdEncode State.reset tA .wait60)) = some (.taReq false) := by decide

/-- Readable, not yet valid, and in flight, for both results. -/
theorem witness_ReadWithoutValueIsRefused :
    (afterA.frameValid = true ∧ encodeInFlight afterA = false) ∧ State.reset.frameValid = false ∧
    encodeInFlight (holdEncode afterA tA .wait60) = true ∧
    ((finishParity 0xD 0 4 afterA).pbitValid = true ∧ parityInFlight (finishParity 0xD 0 4 afterA) = false) ∧
    State.reset.pbitValid = false ∧ parityInFlight (holdParity afterA 0xD 0 4 0) = true :=
  ⟨⟨rfl, rfl⟩, rfl, rfl, ⟨rfl, rfl⟩, rfl, rfl⟩

/-- The three cells at the top end, with a cell on the one side and none on the other. -/
theorem witness_CellsCarryTheLeastSignificantBitFirst : 56 + 3 ≤ 59 ∧ (2 < 3) ∧ (55 < 56 ∨ 56 + 3 ≤ 55) ∧
    memRead (memWrite 0 56 3 6) 56 3 = 6 := by decide

/-- Empty ranges at both ends, a split at the ends, a flip just inside and just outside, all-zero and all-one ranges. -/
theorem witness_ParityLaws : (0 ≤ 59 ∧ 59 ≤ 59) ∧ 58 ≤ 58 ∧ (0 ≤ 0 ∧ 0 ≤ 59 ∧ 59 ≤ 59) ∧
    (21 ≤ 27 ∧ 27 < 28) ∧ ¬ (21 ≤ 28 ∧ 28 < 28) ∧ (∀ p, 4 ≤ p → p < 59 → (0xD : Frame).getLsbD p = false) ∧
    (∀ p, 2 ≤ p → p < 4 → (0xD : Frame).getLsbD p = true) := by
  refine ⟨by decide, by decide, by decide, by decide, by decide, ?_, ?_⟩
  · intro p h1 h2
    have : ∀ q : Fin 59, 4 ≤ q.val → (0xD : Frame).getLsbD q.val = false := by decide
    exact this ⟨p, h2⟩ h1
  · intro p h1 h2
    have : p = 2 ∨ p = 3 := by omega
    rcases this with rfl | rfl <;> rfl

/-- The document's example, its parity written into the next cell. -/
theorem witness_RangeWithItsParityIsEven : 0 ≤ 4 ∧ 4 ≤ 58 ∧
    (∀ p, 0 ≤ p → p < 4 → (0x1D : Frame).getLsbD p = (0xD : Frame).getLsbD p) ∧
    (0x1D : Frame).getLsbD 4 = par 0xD 0 4 := by
  refine ⟨by decide, by decide, ?_, by decide⟩
  intro p _ h
  have : ∀ q : Fin 4, (0x1D : Frame).getLsbD q.val = (0xD : Frame).getLsbD q.val := by decide
  exact this ⟨p, h⟩

theorem witness_ParityIsTheExclusiveOrOfTheRange : 0 ≤ 59 ∧ 59 ≤ 59 ∧
    ∀ p, 5 ≤ p → p < 59 → (0x1D : Frame).getLsbD p = (0xD : Frame).getLsbD p := by
  refine ⟨by decide, by decide, ?_⟩
  intro p h1 h2
  have : ∀ q : Fin 59, 5 ≤ q.val → (0x1D : Frame).getLsbD q.val = (0xD : Frame).getLsbD q.val := by decide
  exact this ⟨p, h2⟩ h1

theorem witness_ParityRefusesAnIllFormedRange : State.reset.inflight = none ∧
    (BitVec.toNat (4 : BitVec 6) < BitVec.toNat (5 : BitVec 6)) ∧ 59 < BitVec.toNat (60 : BitVec 6) := ⟨rfl, by decide, by decide⟩

theorem witness_EncodeHasMeaningExactlyOnItsDomain : State.reset.inflight = none ∧
    ∀ s', exec (.encode ⟨60, 0, 1, 0, 1, 0, .notInEffect⟩) State.reset ≠ .next s' := by
  refine ⟨rfl, fun s' h => ?_⟩
  have : exec (.encode ⟨60, 0, 1, 0, 1, 0, .notInEffect⟩) State.reset = .refused .invalidCalendarTime := rfl
  rw [this] at h
  cases h

/-- Two different times with the same answers and the same T.dst. -/
theorem witness_EveryEncodedFrameKeepsItsInvariants :
    EncodeReady (answering tA nmA nhA) tA nmA nhA ∧
    EncodeReady (answering { tA with minute := 7 } nmA nhA) { tA with minute := 7 } nmA nhA ∧
    tA.dst = ({ tA with minute := 7 } : CalendarTime).dst ∧
    (∃ s', exec (.encode { tA with minute := 7 }) (answering { tA with minute := 7 } nmA nhA) = .next s') := by
  have h : EncodeReady (answering { tA with minute := 7 } nmA nhA) { tA with minute := 7 } nmA nhA :=
    ⟨rfl, by decide, by decide, by decide, by decide, by decide⟩
  exact ⟨witness_encodeReady, h, rfl, _, (exec_encode_next _ _ _).mpr ⟨nmA, nhA, h, rfl⟩⟩

/-- The first and the last minute of the announcement hour and the minutes beside them, change at minute 120 of the day. -/
theorem witness_AnnouncementLastsTheHourBeforeAChange :
    ∀ k ∈ [59, 60, 119, 120], ∃ s t nm nh, EncodeReady s t nm nh ∧ Dst.notInEffect ≠ Dst.inEffect ∧
      t.dst = (if k < 120 then Dst.notInEffect else Dst.inEffect) ∧
      nm.dst = (if k + 1 < 120 then Dst.notInEffect else Dst.inEffect) ∧
      nh.dst = (if k + 60 < 120 then Dst.notInEffect else Dst.inEffect) := by
  intro k hk
  have ready : ∀ a b c : Dst, a ≠ .reserved → b ≠ .reserved → c ≠ .reserved →
      EncodeReady (answering { tA with dst := a } { nmA with dst := b } { nhA with dst := c })
        { tA with dst := a } { nmA with dst := b } { nhA with dst := c } := fun a b c ha hb hc =>
    ⟨rfl, by cases a <;> first | rfl | exact absurd rfl ha, by simp [answering, timeAdd, listedAnswer], by simp [answering, timeAdd, listedAnswer],
      by cases b <;> first | rfl | exact absurd rfl hb, hc⟩
  have known : ∀ n, (if n < 120 then Dst.notInEffect else Dst.inEffect) ≠ .reserved := fun n => by split <;> decide
  exact ⟨_, _, _, _, ready _ _ _ (known k) (known (k + 1)) (known (k + 60)), by decide, rfl, rfl, rfl⟩

theorem witness_ResultsAreIndependentOfPriorState :
    (answering tA nmA nhA).inflight = none ∧ { answering tA nmA nhA with frame := 0, frameValid := true }.inflight = none ∧
    (∃ s', exec (.parity 0xD 0 4) State.reset = .next s') ∧ afterA.inflight = none := ⟨rfl, rfl, ⟨_, rfl⟩, rfl⟩

/-- A busy block; a cycle with start, with an acknowledge, with torn operands; an awaited torn answer. -/
theorem witness_ProtocolViolationsAreRefused :
    (holdEncode State.reset tA .wait60).busy = true ∧ ({ idlePins with start := true } : Pins).rst = false ∧
    (∀ t nm, (holdEncode State.reset tA .request60).inflight ≠ some (.encode t .wait60) ∧
      (holdEncode State.reset tA .request60).inflight ≠ some (.encode t (.wait3600 nm))) ∧
    State.reset.busy = false ∧ ({ idlePins with start := true } : Pins).t = .torn ∧
    ({ idlePins with start := true, op := 1 } : Pins).phi = .torn ∧
    (holdEncode State.reset tA .wait60).inflight = some (.encode tA .wait60) ∧
    (holdEncode State.reset tA (.wait3600 nmA)).inflight = some (.encode tA (.wait3600 nmA)) ∧
    ({ answerPins 0x0BF418F880 with taLate := true } : Pins).taAck = true ∧
    ({ answerPins 0x0BF418F880 with taLate := true } : Pins).rst = false := by
  refine ⟨rfl, rfl, fun t nm => ⟨?_, ?_⟩, rfl, rfl, rfl, rfl, rfl, rfl, rfl⟩
  · intro h; injection h with h; injection h with _ h; cases h
  · intro h; injection h with h; injection h with _ h; cases h

theorem witness_OperandPortsMatterOnlyAtAcceptance :
    (holdEncode State.reset tA .wait60).busy = true ∧ idlePins.start = false ∧
    (encodePins 0x03F418F87B).op = 0 ∧ ({ encodePins 0x03F418F87B with phi := .whole 63 } : Pins).t = (encodePins 0x03F418F87B).t ∧
    (parityPins 0xD 0 4).op = 1 ∧ ({ parityPins 0xD 0 4 with t := .whole 0 } : Pins).pdata = (parityPins 0xD 0 4).pdata :=
  ⟨rfl, rfl, rfl, rfl, rfl, rfl⟩

/-- NM and NH arrive as words. -/
theorem witness_ClockedEncodeIsTheOperation :
    EncodeReady (answering tA nmA (ctOfWord 0x0BF418F8BB)) tA nmA (ctOfWord 0x0BF418F8BB) := witness_encodeReady

theorem witness_RequestsCarryTheUnmodifiedTime :
    (encodePins 0x03F418F87B).t = .whole 0x03F418F87B ∧ inRangeCT (ctOfWord 0x03F418F87B) = true ∧
    (answerPins 0x0BF418F880).taLate = false ∧ (answerPins 0x0BF418F880).taR = .whole 0x0BF418F880 ∧ inRangeCT (ctOfWord 0x0BF418F880) = true ∧
    (holdEncode State.reset tA .wait60).inflight = some (.encode tA .wait60) ∧
    taRequest (holdEncode State.reset tA .request60) = some (.minute, wordOfCt tA) ∧
    taRequest (holdEncode State.reset tA (.request3600 nmA)) = some (.hour, wordOfCt tA) :=
  ⟨rfl, by decide, rfl, rfl, by decide, rfl, rfl, rfl⟩

theorem witness_UnansweredRequestStaysBusy :
    (holdEncode State.reset tA .wait60).inflight = some (.encode tA .wait60) ∧
    (holdEncode State.reset tA (.wait3600 nmA)).inflight = some (.encode tA (.wait3600 nmA)) ∧
    ∀ p ∈ [idlePins, { idlePins with op := 1, t := .whole 0, taR := .whole 5 }],
      p.rst = false ∧ p.start = false ∧ p.taAck = false := by
  refine ⟨rfl, rfl, fun p hp => ?_⟩
  simp only [List.mem_cons, List.not_mem_nil, or_false] at hp
  rcases hp with rfl | rfl <;> exact ⟨rfl, rfl, rfl⟩

/-- The invariant of a state with a readable frame, a read of which is the next action and answers. -/
theorem witness_EveryStepKeepsTheInvariant :
    Inv (setScript afterA [.read .frame]) ∧ ∃ s', step (setScript afterA [.read .frame]) = .next s' := by
  have hl := legalFields_of_inRangeCT nmA (by decide)
  have hf := encodeCore_format (answering tA nmA nhA).frame tA.dst nmA nhA.dst hl
  have hi : FrameShape afterA.frame ∧ StatusMatches afterA.frame afterA.status ∧ StatusLegal afterA.status := by
    rw [afterA, finishEncode_frame, finishEncode_status]
    exact ⟨shape_of_format _ _ _ _ hl hf, status_of_format _ _ _ _ hf, statusLegal_of_legal _ _ _ hl⟩
  refine ⟨⟨fun _ _ => by rw [setScript_frame, setScript_status]; exact hi, fun f h => ?_, fun _ => rfl, fun o h => ?_⟩, _, rfl⟩
  · cases h
  · cases h

/-- A step that keeps, clears and sets each valid flag. -/
theorem witness_ValidFlagsAreClearedOnlyByReset :
    (∃ t, step (setScript (finishParity 0xD 0 4 afterA) [.reset]) = .next t ∧ t.frameValid = false ∧ t.pbitValid = false) ∧
    (∃ t, step (setScript (answering tA nmA nhA) [.command ⟨0, 0x03F418F87B, 0, 0, 0⟩]) = .next t ∧ t.frameValid = true) ∧
    (∃ t, step (setScript State.reset [.command ⟨1, 0, 0xD, 0, 4⟩]) = .next t ∧ t.pbitValid = true) := by
  refine ⟨⟨_, rfl, rfl, rfl⟩, ?_, ⟨_, rfl, rfl⟩⟩
  have h : EncodeReady (setScript (answering tA nmA nhA) []) tA nmA nhA :=
    ⟨rfl, by decide, by decide, by decide, by decide, by decide⟩
  exact ⟨_, (exec_encode_next tA _ _).mpr ⟨nmA, nhA, h, rfl⟩, rfl⟩

/-- A step that changes FRAME, and one that changes PBIT. -/
theorem witness_EachResultHasOneWriter :
    afterA.frame ≠ (answering tA nmA nhA).frame ∧
    (∃ t, step (setScript { State.reset with pbit := false } [.command ⟨1, 0, 0xD, 0, 4⟩]) = .next t ∧ t.pbit ≠ false) := by
  refine ⟨fun h => ?_, ⟨_, rfl, by decide⟩⟩
  have hl := legalFields_of_inRangeCT nmA (by decide)
  have hs := shape_of_format _ _ _ _ hl (encodeCore_format (answering tA nmA nhA).frame tA.dst nmA nhA.dst hl)
  have h0 := hs.zeros 0 (by decide)
  rw [afterA, finishEncode_frame] at h
  rw [h] at h0
  cases h0

theorem witness_SixtyMinutesAreOneHour : tA.minute.toNat ≤ 59 ∧ nmA.minute.toNat ≤ 59 := by decide

/-- The last answered minute and the first unanswered one, a leap day, and a date that does not exist. -/
theorem witness_ReferenceAnswersAreRealDates :
    realDate 0 ⟨58, 23, 31, 0, 12, 4095, .notInEffect⟩ = true ∧
    (wallAdd 0 ⟨58, 23, 31, 0, 12, 4095, .notInEffect⟩ .minute).isSome = true ∧
    realDate 0 ⟨59, 23, 31, 0, 12, 4095, .notInEffect⟩ = true ∧
    realDate 20 ⟨59, 23, 29, 0, 2, 24, .notInEffect⟩ = true ∧ realDate 20 ⟨0, 0, 29, 0, 2, 23, .notInEffect⟩ = false := by decide

/-- A minute inside the hour in the last answered hour of all, the last minute of an hour, and the last minute of a day inside
a month, of a month and of a year. -/
theorem witness_ReferenceEncodeDescribesTheFollowingMinute :
    ({ State.reset with platform := .reference 0 [] } : State).inflight = none ∧
    ∀ t ∈ [⟨58, 22, 31, 0, 12, 4095, .notInEffect⟩, ⟨59, 22, 31, 0, 12, 4095, .notInEffect⟩,
      ⟨59, 23, 30, 6, 12, 4095, .notInEffect⟩, ⟨59, 23, 29, 4, 2, 2024, .inEffect⟩,
      (⟨59, 23, 31, 5, 12, 1999, .notInEffect⟩ : CalendarTime)],
      realDate 0 t = true ∧ wallAdd 0 t .hour ≠ none := ⟨rfl, by decide⟩

end Sys2Proof.Tests
end

