-- ==== Sys2Proof/Proofs/PriorState.lean ====
section
/-! The results of an operation do not depend on what the registers held before (`10_state.md` R37). -/

namespace Sys2Proof.Proofs

open Sys2Proof.Machine Sys2Proof.Safety

/-- FRAME after a completed ENCODE is a function of T.dst, NM and NH.dst alone. -/
theorem finishEncode_frame_eq (a : Dst) (nm : CalendarTime) (b : Dst) (s₁ s₂ : State) :
    (finishEncode a nm b s₁).frame = (finishEncode a nm b s₂).frame := by
  rw [finishEncode_frame, finishEncode_frame]
  exact encodeCore_old s₁.frame s₂.frame a nm b

/-- STATUS after a completed ENCODE is a function of T.dst, NM and NH.dst alone: A1 and Z1 are copied from the new frame. -/
theorem finishEncode_status_eq (a : Dst) (nm : CalendarTime) (b : Dst) (s₁ s₂ : State) :
    (finishEncode a nm b s₁).status = (finishEncode a nm b s₂).status := by
  rw [finishEncode_status, finishEncode_status, encodeCore_old s₁.frame s₂.frame a nm b]

/-- PBIT after a completed PARITY is the parity of the operand's range. -/
@[simp] theorem finishParity_pbit (b : Frame) (lo hi : BitVec 6) (s : State) :
    (finishParity b lo hi s).pbit = par b lo.toNat hi.toNat := rfl

/-- Whether ENCODE has a meaning in an idle state depends on the answers of the primitive only. -/
theorem encodeReady_of_same_answers {s₁ s₂ : State} {t nm nh : CalendarTime} (idle : s₂.inflight = none)
    (hm : timeAdd s₁.platform t .minute = timeAdd s₂.platform t .minute)
    (hh : timeAdd s₁.platform t .hour = timeAdd s₂.platform t .hour) (h : EncodeReady s₁ t nm nh) :
    EncodeReady s₂ t nm nh :=
  { h with idle := idle, minute := hm ▸ h.minute, hour := hh ▸ h.hour }

/-- Settles O32: the second state meets the same conditions, so the operation completes there too, with the same results. -/
theorem resultsAreIndependentOfPriorState : Obligations.ResultsAreIndependentOfPriorState := by
  constructor
  · intro s₁ s₂ s₁' t _ idle₂ hm hh h
    obtain ⟨nm, nh, ready, rfl⟩ := (exec_encode_next t s₁ s₁').mp h
    have ready₂ : EncodeReady s₂ t nm nh := encodeReady_of_same_answers idle₂ hm hh ready
    exact ⟨finishEncode t.dst nm nh.dst s₂, (exec_encode_next t s₂ _).mpr ⟨nm, nh, ready₂, rfl⟩,
      finishEncode_frame_eq .., finishEncode_status_eq ..⟩
  · intro s₁ s₂ s₁' b lo hi _ idle₂ h
    obtain ⟨ready, rfl⟩ := (exec_parity_next b lo hi s₁ s₁').mp h
    have ready₂ : ParityReady s₂ lo hi := { ready with idle := idle₂ }
    exact ⟨finishParity b lo hi s₂, (exec_parity_next b lo hi s₂ _).mpr ⟨ready₂, rfl⟩, by simp⟩

end Sys2Proof.Proofs
end

