-- ==== Sys2Proof/Proofs/Encoding.lean ====
section
/-! The frame that ENCODE leaves (`30_encoding.md` R75) and the six named uses of PARITY (R85). -/

namespace Sys2Proof.Proofs

open Sys2Proof.Machine Sys2Proof.Safety

/-- ENCODE answers with its completed state wherever it has a meaning (`41_encode.md` R113). -/
theorem exec_encode_of_ready {s : State} {t nm nh : CalendarTime} (ready : EncodeReady s t nm nh) :
    exec (.encode t) s = .next (finishEncode t.dst nm nh.dst s) :=
  (exec_encode_next t s _).mpr ⟨nm, nh, ready, rfl⟩

/-- A completed ENCODE holds a frame in the format of `30_encoding.md` R75: the answer NM it was written from is legal. -/
theorem finishEncode_format {s : State} {t nm nh : CalendarTime} (ready : EncodeReady s t nm nh) :
    FrameFormat (finishEncode t.dst nm nh.dst s).frame t.dst nm nh.dst :=
  encodeCore_format s.frame t.dst nm nh.dst (legalFields_of_inRangeCT nm ready.legalNM)

/-- Settles O22: ENCODE completes on its domain, and its frame is the one `encodeCore` writes. -/
theorem encodeWritesTheFrameFormat : Obligations.EncodeWritesTheFrameFormat := fun s t nm nh ready =>
  ⟨finishEncode t.dst nm nh.dst s, exec_encode_of_ready ready, finishEncode_format ready⟩

/-- PARITY of a legal range on an idle block answers, and PBIT is the bit that is 1 exactly when the range holds an odd
number of ones (`40_parity.md` R100, R103). -/
theorem exec_parity_leaves {s : State} {b : Frame} {lo hi : BitVec 6} {v : Bool} (idle : s.inflight = none)
    (range : lo.toNat ≤ hi.toNat ∧ hi.toNat ≤ 59) (hv : v = true ↔ onesIn b lo.toNat hi.toNat % 2 = 1) :
    LeavesParity (exec (.parity b lo hi) s) v := by
  have pbit_eq : (finishParity b lo hi s).pbit = v := by
    rw [finishParity_pbit, par_eq, Bool.eq_iff_iff, decide_eq_true_iff, hv]
  exact ⟨finishParity b lo hi s, (exec_parity_next b lo hi s _).mpr ⟨⟨idle, range.1, range.2⟩, rfl⟩, pbit_eq, rfl⟩

/-- On any vector: PARITY gives 0 exactly when its range holds an even number of ones. -/
theorem exec_parity_leaves_decide {s : State} {b : Frame} {lo hi : BitVec 6} (idle : s.inflight = none)
    (range : lo.toNat ≤ hi.toNat ∧ hi.toNat ≤ 59) :
    LeavesParity (exec (.parity b lo hi) s) (decide (onesIn b lo.toNat hi.toNat % 2 ≠ 0)) :=
  exec_parity_leaves idle range (decide_eq_true_iff.trans Nat.mod_two_ne_zero)

/-- On a range with an even number of ones PARITY gives 0 (`40_parity.md` R101). -/
theorem exec_parity_leaves_false {s : State} {b : Frame} {lo hi : BitVec 6} (idle : s.inflight = none)
    (range : lo.toNat ≤ hi.toNat ∧ hi.toNat ≤ 59) (even : onesIn b lo.toNat hi.toNat % 2 = 0) :
    LeavesParity (exec (.parity b lo hi) s) false :=
  exec_parity_leaves idle range (by simp [even])

/-- Settles O29: each named use is PARITY of a legal range. On an encoded frame the PAR uses give the parity cells by the
frame format, and the CHK uses give 0 because each group with its parity cell holds an even number of ones. -/
theorem pseudoOperationsUseTheirRanges : Obligations.PseudoOperationsUseTheirRanges := by
  constructor
  · intro s b idle
    exact ⟨exec_parity_leaves_decide idle (by decide), exec_parity_leaves_decide idle (by decide),
      exec_parity_leaves_decide idle (by decide), exec_parity_leaves_decide idle (by decide),
      exec_parity_leaves_decide idle (by decide), exec_parity_leaves_decide idle (by decide)⟩
  · intro s s' t h
    obtain ⟨nm, nh, ready, rfl⟩ := (exec_encode_next t s s').mp h
    have idle := finishEncode_inflight t.dst nm nh.dst s
    have format := finishEncode_format ready
    have shape := shape_of_format _ _ nm _ (legalFields_of_inRangeCT nm ready.legalNM) format
    exact ⟨exec_parity_leaves idle (by decide) format.p1, exec_parity_leaves idle (by decide) format.p2,
      exec_parity_leaves idle (by decide) format.p3, exec_parity_leaves_false idle (by decide) shape.evenMin,
      exec_parity_leaves_false idle (by decide) shape.evenHour, exec_parity_leaves_false idle (by decide) shape.evenDate⟩

end Sys2Proof.Proofs
end

