-- ==== Sys2Proof/Proofs/Parity.lean ====
section
/-! The parity function on any vector and range: its defining property and its laws (`40_parity.md` R100 to R102). -/

namespace Sys2Proof.Proofs

open Sys2Proof.Machine Sys2Proof.Safety

/-! ## Splitting a range -/

@[simp] theorem par_self (b : Frame) (p : Nat) : par b p p = false := by
  simp [par_eq, onesIn]

@[simp] theorem par_single (b : Frame) (p : Nat) : par b p (p + 1) = b.getLsbD p := by
  rw [par_eq, onesIn_single]
  cases b.getLsbD p <;> rfl

/-- The ones of the two parts add up, and the parity of a sum is the exclusive-or of the parities. -/
theorem par_split (b : Frame) {lo mid hi : Nat} (h₁ : lo ≤ mid) (h₂ : mid ≤ hi) :
    par b lo hi = (par b lo mid ^^ par b mid hi) := by
  rw [par_eq, par_eq, par_eq, onesIn_split b lo mid hi h₁ h₂]
  rcases Nat.mod_two_eq_zero_or_one (onesIn b lo mid) with hl | hl <;>
    rcases Nat.mod_two_eq_zero_or_one (onesIn b mid hi) with hr | hr <;>
    simp [Nat.add_mod, hl, hr]

theorem par_succ (b : Frame) {lo hi : Nat} (h : lo ≤ hi) : par b lo (hi + 1) = (par b lo hi ^^ b.getLsbD hi) := by
  rw [par_split b h (Nat.le_succ hi), par_single]

/-- The cell-by-cell form of R100, by induction on the length of the range. -/
theorem par_eq_foldl_xor (b : Frame) (lo n : Nat) :
    par b lo (lo + n) = (List.range' lo n).foldl (fun x p => x ^^ b.getLsbD p) false := by
  induction n with
  | zero => simp
  | succ n ih =>
    rw [← Nat.add_assoc, par_succ b (Nat.le_add_right lo n), ih, List.range'_concat, List.foldl_append]
    simp

/-! ## The cells that matter -/

theorem par_congr {b c : Frame} {lo hi : Nat} (h : ∀ p, lo ≤ p → p < hi → b.getLsbD p = c.getLsbD p) :
    par b lo hi = par c lo hi := by
  rw [par_eq, par_eq, onesIn_congr b c lo hi h]

/-- A range that does not hold the cell does not see a write to it. -/
theorem par_setCell_of_outside (b : Frame) {p lo hi : Nat} (v : Bool) (h : ¬ (lo ≤ p ∧ p < hi)) :
    par (setCell b p v) lo hi = par b lo hi :=
  par_congr fun q hlo hhi => by rw [getLsbD_setCell, if_neg (by omega)]

/-- The range splits into the cells before `p`, the flipped cell, and the cells after `p`. -/
theorem par_flip_of_inside (b : Frame) {p lo hi : Nat} (hp : p < 59) (hlo : lo ≤ p) (hhi : p < hi) :
    par (setCell b p (!b.getLsbD p)) lo hi = !par b lo hi := by
  have split (c : Frame) : par c lo hi = ((par c lo p ^^ c.getLsbD p) ^^ par c (p + 1) hi) := by
    rw [par_split c (Nat.le_succ_of_le hlo) hhi, par_succ c hlo]
  rw [split, split b, par_setCell_of_outside b _ (by omega), par_setCell_of_outside b _ (by omega),
    getLsbD_setCell, if_pos ⟨rfl, hp⟩]
  simp

/-! ## Counting the ones -/

theorem par_toNat (b : Frame) (lo hi : Nat) : (par b lo hi).toNat = onesIn b lo hi % 2 := by
  rw [par_eq]
  rcases Nat.mod_two_eq_zero_or_one (onesIn b lo hi) with h | h <;> simp [h]

theorem onesIn_of_zeros {b : Frame} {lo hi : Nat} (h : ∀ p, lo ≤ p → p < hi → b.getLsbD p = false) :
    onesIn b lo hi = 0 := by
  rw [onesIn, List.countP_eq_zero]
  intro p hp
  rw [List.mem_range'_1] at hp
  simp [h p hp.1 (by omega)]

theorem onesIn_of_ones {b : Frame} {lo hi : Nat} (h : ∀ p, lo ≤ p → p < hi → b.getLsbD p = true) :
    onesIn b lo hi = hi - lo := by
  have all_ones : ∀ p ∈ List.range' lo (hi - lo), b.getLsbD p = true := fun p hp => by
    rw [List.mem_range'_1] at hp
    exact h p hp.1 (by omega)
  rw [onesIn, List.countP_eq_length.mpr all_ones, List.length_range']

theorem onesFrom_le (b : Frame) (lo n : Nat) : onesFrom b lo n ≤ n := by
  rw [onesFrom_eq_countP]
  exact List.countP_le_length.trans_eq List.length_range'

/-! ## The obligations -/

/-- Settles O16: laws (a) to (d) by splitting the range, (e) and (f) by counting its ones. -/
theorem parityLaws : Obligations.ParityLaws := by
  refine ⟨fun b p _ => par_self b p, fun b p _ => par_single b p, fun b lo mid hi h₁ h₂ _ => par_split b h₁ h₂,
    ?flip, ?zeros, ?ones, fun b lo hi _ _ => par_toNat b lo hi, ?bounds⟩
  case flip =>
    intro b p lo hi _ _ hp
    split
    · next inside => exact par_flip_of_inside b hp inside.1 inside.2
    · next outside => exact par_setCell_of_outside b _ outside
  case zeros =>
    intro b lo hi _ _ h
    simp [par_eq, onesIn_of_zeros h]
  case ones =>
    intro b lo hi _ _ h
    rw [par_eq, onesIn_of_ones h]
  case bounds =>
    intro b lo hi _ h59
    exact ⟨(onesFrom_le b lo (hi - lo)).trans (by omega), Bool.toNat_le _⟩

/-- Settles O17: the returned bit is the count modulo 2; written at `hi`, it cancels the parity of the range before it. -/
theorem rangeWithItsParityIsEven : Obligations.RangeWithItsParityIsEven := by
  intro b lo hi hle _
  constructor
  · rw [par_toNat]
    omega
  · intro c _ agree cell
    rw [par_succ c hle, par_congr agree, cell, Bool.xor_self]

/-- Settles O18: by the count of ones, the induction over the cells of the range, and the frame of the count. -/
theorem parityIsTheExclusiveOrOfTheRange : Obligations.ParityIsTheExclusiveOrOfTheRange := by
  refine ⟨fun b lo hi hle _ => ⟨?odd, ?xor, fun c agree => par_congr agree⟩, by decide⟩
  case odd => rw [par_eq, decide_eq_true_iff]
  case xor => rw [← par_eq_foldl_xor, Nat.add_sub_cancel' hle]

end Sys2Proof.Proofs
end

