-- ==== Sys2Proof/Proofs/Encode.lean ====
section
/-! ENCODE: where it has a meaning (`41_encode.md` R113), what every frame it leaves satisfies (R136), and the STATUS it
reports (R137). -/

namespace Sys2Proof.Proofs

open Sys2Proof.Machine Sys2Proof.Safety

/-! ## The domain -/

/-- Accepting a command adds a refusal and no fault. -/
theorem accept_ne_fault {out : Out} {r : Fault} (h : out ≠ .fault r) (s : State) : accept s out ≠ .fault r := by
  unfold accept
  split
  · exact nofun
  · exact h

theorem encodeAnswered_ne_fault (d : Dst) (nm nh : Option CalendarTime) (s : State) (r : Fault) :
    encodeAnswered d nm nh s ≠ .fault r := by
  cases nm with
  | none => exact nofun
  | some nm =>
    cases nh with
    | none => exact nofun
    | some nh =>
      rw [encodeAnswered]
      split <;> exact nofun

/-- ENCODE takes no exception (`60_exceptions.md` R170). -/
theorem exec_encode_ne_fault (t : CalendarTime) (s : State) (r : Fault) : exec (.encode t) s ≠ .fault r := by
  rw [exec, execEncode]
  apply accept_ne_fault
  split
  · exact encodeAnswered_ne_fault _ _ _ s r
  · exact nofun

/-- Settles O21: ENCODE answers exactly where `EncodeReady` holds, and what neither answers nor faults is refused. -/
theorem encodeHasMeaningExactlyOnItsDomain : Obligations.EncodeHasMeaningExactlyOnItsDomain := by
  intro s t idle
  constructor
  · constructor
    · rintro ⟨s', h⟩
      obtain ⟨nm, nh, ready, -⟩ := (exec_encode_next t s s').mp h
      exact ⟨ready.time, nm, nh, ready.minute, ready.hour, ready.legalNM, ready.legalNH⟩
    · rintro ⟨time, nm, nh, minute, hour, legalNM, legalNH⟩
      exact ⟨_, exec_encode_of_ready ⟨idle, time, minute, hour, legalNM, legalNH⟩⟩
  · intro no_next
    cases h : exec (.encode t) s with
    | next s' => exact absurd h (no_next s')
    | fault r => exact absurd h (exec_encode_ne_fault t s r)
    | refused r => exact ⟨r, rfl⟩

/-! ## What every encoded frame satisfies -/

/-- The answers determine the next state. -/
theorem eq_finishEncode_of_exec {s s' : State} {t nm nh : CalendarTime} (ready : EncodeReady s t nm nh)
    (h : exec (.encode t) s = .next s') : s' = finishEncode t.dst nm nh.dst s := by
  rw [exec_encode_of_ready ready] at h
  injection h with h
  exact h.symm

/-- A completed ENCODE holds a frame of the shape of `41_encode.md` R136 (a) to (d). -/
theorem finishEncode_shape {s : State} {t nm nh : CalendarTime} (ready : EncodeReady s t nm nh) :
    FrameShape (finishEncode t.dst nm nh.dst s).frame :=
  shape_of_format _ _ nm _ (legalFields_of_inRangeCT nm ready.legalNM) (finishEncode_format ready)

/-- Whatever the inputs, an ENCODE that answers leaves a frame of that shape. -/
theorem frameShape_of_exec_encode {s s' : State} {t : CalendarTime} (h : exec (.encode t) s = .next s') :
    FrameShape s'.frame := by
  obtain ⟨nm, nh, ready, rfl⟩ := (exec_encode_next t s s').mp h
  exact finishEncode_shape ready

/-- The parity function is 0 on a range with an even number of ones (`40_parity.md` R100). -/
theorem par_eq_false_of_even {f : Frame} {lo hi : Nat} (even : onesIn f lo hi % 2 = 0) : par f lo hi = false := by
  simp [par_eq, even]

/-- Settles O23: (a) to (d) are the shape of the frame, (e) holds because STATUS carries NM and the frame matches STATUS,
and for (f) both frames are written from the same T.dst, NM and NH.dst over whatever FRAME held. -/
theorem everyEncodedFrameKeepsItsInvariants : Obligations.EveryEncodedFrameKeepsItsInvariants := by
  constructor
  · intro s s' t nm nh ready h
    obtain rfl := eq_finishEncode_of_exec ready h
    have shape := finishEncode_shape ready
    obtain ⟨minute, hour, day, wday, month, year, -, -⟩ := status_of_format _ _ nm _ (finishEncode_format ready)
    have zones_differ : (finishEncode t.dst nm nh.dst s).frame.getLsbD 17 ≠
        (finishEncode t.dst nm nh.dst s).frame.getLsbD 18 := by
      rw [shape.zone]
      exact (Bool.not_ne_self _).symm
    have wday_le : weekdayOf (finishEncode t.dst nm nh.dst s).frame ≤ 7 := Nat.le_of_lt_succ (BitVec.isLt _)
    exact ⟨shape, zones_differ, par_eq_false_of_even shape.evenMin, par_eq_false_of_even shape.evenHour,
      par_eq_false_of_even shape.evenDate, wday_le, minute, hour, day, wday.trans (frameWeekday_toNat nm.dow), month, year⟩
  · intro s₁ s₂ s₁' s₂' t₁ t₂ nm nh₁ nh₂ ready₁ ready₂ same_now same_next h₁ h₂
    rw [eq_finishEncode_of_exec ready₁ h₁, eq_finishEncode_of_exec ready₂ h₂, same_now, same_next]
    exact finishEncode_frame_eq ..

/-- Settles O24: the zero cells of the frame shape. -/
theorem reservedAndFaultAndLeapCellsAreZero : Obligations.ReservedAndFaultAndLeapCellsAreZero := by
  intro s s' t h
  have shape := frameShape_of_exec_encode h
  exact ⟨shape.zeros 0 (by decide), fun p _ hp => shape.zeros p (by omega), shape.zeros 15 (by decide), shape.a2⟩

/-! ## The start marker is the only cell always 1 -/

/-- An idle block whose platform answers NM and NH for T and resolves nothing else. -/
def blockAnswering (t nm nh : CalendarTime) : State :=
  { State.reset with platform := .listed [⟨t, .minute, some nm⟩, ⟨t, .hour, some nh⟩] }

theorem encodeReady_blockAnswering {t nm nh : CalendarTime} (time : inRangeCT t = true) (legalNM : inRangeCT nm = true)
    (legalNH : nh.dst ≠ .reserved) : EncodeReady (blockAnswering t nm nh) t nm nh where
  idle := rfl
  time := time
  minute := by simp [blockAnswering, timeAdd, listedAnswer]
  hour := by simp [blockAnswering, timeAdd, listedAnswer]
  legalNM := legalNM
  legalNH := legalNH

/-- Every frame that legal inputs give, written here over an all-zero one, is left by some ENCODE. -/
theorem exists_encode_frame {t nm nh : CalendarTime} (time : inRangeCT t = true) (legalNM : inRangeCT nm = true)
    (legalNH : nh.dst ≠ .reserved) :
    ∃ s s', exec (.encode t) s = .next s' ∧ s'.frame = encodeCore 0 t.dst nm nh.dst :=
  ⟨blockAnswering t nm nh, _, exec_encode_of_ready (encodeReady_blockAnswering time legalNM legalNH),
    encodeCore_old _ 0 _ _ _⟩

/-- Midnight of Monday 2001-01-01, daylight saving not in effect. -/
def winterMidnight : CalendarTime := ⟨0, 0, 1, 1, 1, 2001, .notInEffect⟩

/-- Midnight of Tuesday 2002-06-04, daylight saving in effect. -/
def summerMidnight : CalendarTime := ⟨0, 0, 4, 2, 6, 2002, .inEffect⟩

set_option maxRecDepth 4000 in
/-- The frames of these two minutes, no change of state ahead, share the start marker and no other one. -/
theorem midnight_frames_share_start_marker :
    encodeCore 0 .notInEffect winterMidnight .notInEffect &&& encodeCore 0 .inEffect summerMidnight .inEffect =
      BitVec.twoPow 59 20 := by
  decide

/-- Settles O25: position 20 is 1 in the frame shape. Of any other position, one of two frames that have only position 20 in
common holds a 0: those of the minutes 2000-12-31 23:59 and 2002-06-03 23:59. -/
theorem startMarkerIsTheOnlyCellAlwaysOne : Obligations.StartMarkerIsTheOnlyCellAlwaysOne := by
  constructor
  · intro s s' t h
    have marker : s'.frame.getLsbD 20 = true := (frameShape_of_exec_encode h).s
    refine ⟨marker, fun all_zero => ?_⟩
    simp [all_zero] at marker
  · intro p _ hp
    have not_both := congrArg (·.getLsbD p) midnight_frames_share_start_marker
    simp only [BitVec.getLsbD_and, BitVec.getLsbD_twoPow, Ne.symm hp, decide_false, Bool.and_false,
      Bool.and_eq_false_iff] at not_both
    rcases not_both with winter_zero | summer_zero
    · obtain ⟨s, s', h, frame_eq⟩ := exists_encode_frame (t := ⟨59, 23, 31, 0, 12, 2000, .notInEffect⟩)
        (nm := winterMidnight) (nh := { winterMidnight with minute := 59 }) (by decide) (by decide) (by decide)
      exact ⟨s, s', _, h, frame_eq ▸ winter_zero⟩
    · obtain ⟨s, s', h, frame_eq⟩ := exists_encode_frame (t := ⟨59, 23, 3, 1, 6, 2002, .inEffect⟩)
        (nm := summerMidnight) (nh := { summerMidnight with minute := 59 }) (by decide) (by decide) (by decide)
      exact ⟨s, s', _, h, frame_eq ▸ summer_zero⟩

/-! ## The flags and STATUS -/

/-- Settles O26: row A1 of the frame format. -/
theorem announcementComparesNowWithNextHour : Obligations.AnnouncementComparesNowWithNextHour := fun _ _ _ _ ready =>
  ⟨_, exec_encode_of_ready ready, (finishEncode_format ready).a1⟩

/-- Settles O27: row Z1 of the frame format, and row Z2, which is its negation. -/
theorem zoneCellsFollowTheNextMinute : Obligations.ZoneCellsFollowTheNextMinute := by
  intro s t nm nh ready
  have format := finishEncode_format ready
  have z2 : (finishEncode t.dst nm nh.dst s).frame.getLsbD 18 = true ↔ nm.dst ≠ .inEffect := by
    rw [format.z2, Bool.not_eq_true', ← Bool.not_eq_true]
    exact not_congr format.z1
  exact ⟨_, exec_encode_of_ready ready, format.z1, z2⟩

/-- Settles O30: the STATUS of a completed ENCODE is the record of NM with the two flags as the frame holds them. -/
theorem statusReportsTheEncodedMinute : Obligations.StatusReportsTheEncodedMinute := by
  intro s t nm nh ready
  refine ⟨_, exec_encode_of_ready ready, ?_⟩
  rw [finishEncode_status, finishEncode_frame, statusOf, frameWeekday]

end Sys2Proof.Proofs
end

