-- ==== Sys2Proof/Proofs/Words.lean ====
section
/-! The words on the ports: the CT word as a number (`30_encoding.md` R72, R73), the round trips between operations and port
words (R70, R71), and the legal operand values (section 4, R78; `92_eei_decisions.md` D28). -/

namespace Sys2Proof.Proofs

open Sys2Proof.Machine Sys2Proof.Safety

/-! ## Words as numbers -/

/-- Two fields side by side, the second one least significant. -/
theorem toNat_append_eq_add {m n : Nat} (x : BitVec m) (y : BitVec n) :
    (x ++ y).toNat = x.toNat * 2 ^ n + y.toNat := by
  rw [BitVec.toNat_append, ← Nat.shiftLeft_add_eq_or_of_lt y.isLt, Nat.shiftLeft_eq]

/-- A slice of a word as a number. -/
theorem toNat_extractLsb' {w : Nat} (x : BitVec w) (p n : Nat) :
    (x.extractLsb' p n).toNat = x.toNat / 2 ^ p % 2 ^ n := by
  rw [BitVec.extractLsb'_toNat, Nat.shiftRight_eq_div_pow]

/-- The CT word is the weighted sum of its fields (`30_encoding.md` R72). -/
theorem wordOfCt_toNat (t : CalendarTime) : (wordOfCt t).toNat =
    t.minute.toNat + t.hour.toNat * 2 ^ 6 + t.day.toNat * 2 ^ 11 + t.dow.toNat * 2 ^ 16 + t.month.toNat * 2 ^ 19 +
      t.year.toNat * 2 ^ 23 + (bitsOfDst t.dst).toNat * 2 ^ 35 := by
  rw [wordOfCt]
  simp only [toNat_append_eq_add]
  ring

/-! ## Round trips -/

/-- The four codes name the four states (`30_encoding.md` R73). -/
@[simp] theorem dstOfBits_bitsOfDst (d : Dst) : dstOfBits (bitsOfDst d) = d := by
  cases d <;> rfl

@[simp] theorem bitsOfDst_dstOfBits (b : BitVec 2) : bitsOfDst (dstOfBits b) = b := by
  revert b
  decide

/-- Each slice of the weighted sum is the field that was put there: every field is smaller than the next weight. -/
@[simp] theorem ctOfWord_wordOfCt (t : CalendarTime) : ctOfWord (wordOfCt t) = t := by
  have slice (p n : Nat) (v : BitVec n) (h : (wordOfCt t).toNat / 2 ^ p % 2 ^ n = v.toNat) :
      (wordOfCt t).extractLsb' p n = v :=
    BitVec.eq_of_toNat_eq ((toNat_extractLsb' _ p n).trans h)
  have sum := wordOfCt_toNat t
  have minute := t.minute.isLt
  have hour := t.hour.isLt
  have day := t.day.isLt
  have dow := t.dow.isLt
  have month := t.month.isLt
  have year := t.year.isLt
  have dst := (bitsOfDst t.dst).isLt
  rw [ctOfWord, slice 0 6 t.minute (by omega), slice 6 5 t.hour (by omega), slice 11 5 t.day (by omega),
    slice 16 3 t.dow (by omega), slice 19 4 t.month (by omega), slice 23 12 t.year (by omega),
    slice 35 2 (bitsOfDst t.dst) (by omega), dstOfBits_bitsOfDst]

/-- The slices of a word, each with its weight, add up to the word. -/
@[simp] theorem wordOfCt_ctOfWord (w : CtWord) : wordOfCt (ctOfWord w) = w := by
  apply BitVec.eq_of_toNat_eq
  rw [wordOfCt_toNat]
  simp only [ctOfWord, bitsOfDst_dstOfBits, toNat_extractLsb']
  have := w.isLt
  omega

theorem decode_of_op_zero {c : CommandPorts} (h : c.op = 0) : decode c = .encode (ctOfWord c.t) :=
  if_pos h

theorem decode_of_op_one {c : CommandPorts} (h : c.op = 1) : decode c = .parity c.pdata c.plo c.phi :=
  if_neg (by rw [h]; decide)

/-! ## The legal values -/

/-- The fields of a calendar time in range are the legal ones and no other (`92_eei_decisions.md` D28). -/
theorem inRangeCT_iff (x : CalendarTime) : inRangeCT x = true ↔ LegalFields x := by
  constructor
  · exact legalFields_of_inRangeCT x
  · rintro ⟨minute, hour, day, dow, month, dst⟩
    simp [inRangeCT, minute, hour, day, dow, month, dst]

theorem legalRange_iff (lo hi : BitVec 6) : legalRange lo hi = true ↔ lo.toNat ≤ hi.toNat ∧ hi.toNat ≤ 59 := by
  simp [legalRange]

/-! ## The obligations -/

/-- Settles O1: ENCODE by the round trip of its CT word, PARITY because its operands travel as they are. -/
theorem decodeOfEncodeIsTheOperation : Obligations.DecodeOfEncodeIsTheOperation := by
  intro i
  cases i with
  | encode t => exact (decode_of_op_zero rfl).trans (congrArg Instr.encode (ctOfWord_wordOfCt t))
  | parity b lo hi => exact decode_of_op_one rfl

/-- Settles O2: the port `op` selects the format, and `t` survives as the word of the time it carries. -/
theorem portsOfTheSelectedFormatDecide : Obligations.PortsOfTheSelectedFormatDecide := by
  intro c
  constructor
  · intro op
    rw [decode_of_op_zero op]
    exact ⟨by simp [encode, op], rfl⟩
  · intro op
    rw [decode_of_op_one op]
    exact ⟨by simp [encode, op], rfl⟩

/-- Settles O3: the weighted sum, the round trip of words, and the four codes. -/
theorem ctWordIsTheWeightedSumOfItsFields : Obligations.CtWordIsTheWeightedSumOfItsFields :=
  ⟨wordOfCt_toNat, wordOfCt_ctOfWord, rfl, rfl, rfl, rfl⟩

/-- Settles O4: the decoder, run on the four words. -/
theorem wordsOfTheSpecDecode : Obligations.WordsOfTheSpecDecode := by
  unfold Obligations.WordsOfTheSpecDecode
  decide

/-- Settles O5: the range predicates, field by field. -/
theorem legalOperandValues : Obligations.LegalOperandValues := by
  refine ⟨fun x => (inRangeCT_iff x).trans ⟨?fields, ?legal⟩, legalRange_iff⟩
  case fields =>
    rintro ⟨minute, hour, day, dow, month, dst⟩
    exact ⟨minute, hour, day.1, day.2, dow, month.1, month.2, dst⟩
  case legal =>
    rintro ⟨minute, hour, day_pos, day_le, dow, month_pos, month_le, dst⟩
    exact ⟨minute, hour, ⟨day_pos, day_le⟩, dow, ⟨month_pos, month_le⟩, dst⟩

end Sys2Proof.Proofs
end

