-- ==== Sys2Proof/Proofs/Invariant.lean ====
section
/-! The invariant of the machine: it holds after reset, and each named update of the state keeps it, hence every step
(`41_encode.md` R136, `10_state.md` section 3, `60_exceptions.md` section 4). -/

namespace Sys2Proof.Proofs

open Sys2Proof.Machine Sys2Proof.Safety

/-! ## When a result is readable -/

theorem frameReadable_iff (s : State) : frameReadable s = true ↔ s.frameValid = true ∧ encodeInFlight s = false := by
  simp [frameReadable]

theorem pbitReadable_iff (s : State) : pbitReadable s = true ↔ s.pbitValid = true ∧ parityInFlight s = false := by
  simp [pbitReadable]

/-- One operation is in progress at a time. -/
theorem encodeInFlight_eq_false_of_parity {s : State} (h : s.inflight = none ∨ parityInFlight s = true) :
    encodeInFlight s = false := by
  rcases h with idle | parity
  · exact encodeInFlight_of_idle s idle
  · obtain ⟨b, lo, hi, n, hf⟩ := (parityInFlight_iff s).mp parity
    simp [encodeInFlight, hf]

/-! ## The T of an operation in progress -/

/-- A legal ENCODE in progress holds a T in range, whatever its phase. -/
theorem time_inRange_of_legal {t : CalendarTime} {ph : EncodePhase} (h : InFlightLegal (.encode t ph)) :
    inRangeCT t = true := by
  cases ph with
  | request60 => exact h
  | wait60 => exact h
  | request3600 nm => exact h.1
  | wait3600 nm => exact h.1
  | filling nm d n => exact h.1

/-- `ta_t` has a stated value exactly while an ENCODE is in progress: the word of its T (`10_state.md` R21). -/
theorem statedTaT_eq_some_iff (s : State) (w : CtWord) :
    statedTaT s = some w ↔ ∃ t ph, s.inflight = some (.encode t ph) ∧ w = wordOfCt t := by
  unfold statedTaT
  rcases s.inflight with _ | ⟨t, ph⟩ | ⟨b, lo, hi, n⟩
  · simp
  · simp [eq_comm]
  · simp

/-- A request is that of one of the two request cycles (`42_time_arith.md` R154). -/
theorem taRequest_eq_some_iff (s : State) (a : Advance) (w : CtWord) :
    taRequest s = some (a, w) ↔ ∃ t, w = wordOfCt t ∧
      (a = .minute ∧ s.inflight = some (.encode t .request60) ∨
       a = .hour ∧ ∃ nm, s.inflight = some (.encode t (.request3600 nm))) := by
  unfold taRequest
  rcases s.inflight with _ | ⟨t, ph⟩ | ⟨b, lo, hi, n⟩
  · simp
  · cases ph <;> simp [eq_comm, and_comm]
  · simp

/-- In the cycle of a request `ta_t` shows the word it carries. -/
theorem statedTaT_of_taRequest {s : State} {a : Advance} {w : CtWord} (h : taRequest s = some (a, w)) :
    statedTaT s = some w := by
  obtain ⟨t, rfl, ⟨-, hf⟩ | ⟨-, nm, hf⟩⟩ := (taRequest_eq_some_iff s a w).mp h <;>
    exact (statedTaT_eq_some_iff s _).mpr ⟨t, _, hf, rfl⟩

/-- Whatever `ta_t` states is the word of a time in range. -/
theorem inRangeCT_of_statedTaT {s : State} {w : CtWord} (inv : Inv s) (h : statedTaT s = some w) :
    inRangeCT (ctOfWord w) = true := by
  obtain ⟨t, ph, hf, rfl⟩ := (statedTaT_eq_some_iff s w).mp h
  rw [ctOfWord_wordOfCt]
  exact time_inRange_of_legal (inv.flight _ hf)

/-! ## Each update keeps the invariant -/

/-- The invariant does not speak of what the host does next. -/
theorem inv_setScript {s : State} (inv : Inv s) (acts : List HostAction) : Inv (setScript s acts) :=
  ⟨inv.frame, inv.flight, inv.strobe, inv.seen⟩

theorem inv_resetBlock {s : State} (inv : Inv s) : Inv (resetBlock s) where
  frame := nofun
  flight := nofun
  strobe := nofun
  seen := inv.seen

theorem inv_idleCycle {s : State} (inv : Inv s) : Inv (idleCycle s) where
  frame := inv.frame
  flight := inv.flight
  strobe := nofun
  seen := inv.seen

theorem inv_holdEncode {s : State} {t : CalendarTime} {ph : EncodePhase} (inv : Inv s)
    (legal : InFlightLegal (.encode t ph)) : Inv (holdEncode s t ph) where
  frame := nofun
  flight := by rintro f ⟨⟩; exact legal
  strobe := nofun
  seen := inv.seen

/-- A completed ENCODE of a legal NM leaves a frame of the required shape and the STATUS that reports it. -/
theorem inv_finishEncode {s : State} {a b : Dst} {nm : CalendarTime} (inv : Inv s) (legal : inRangeCT nm = true) :
    Inv (finishEncode a nm b s) where
  frame _ _ := by
    have fields := legalFields_of_inRangeCT nm legal
    have format := encodeCore_format s.frame a nm b fields
    rw [finishEncode_frame, finishEncode_status]
    exact ⟨shape_of_format _ a nm b fields format, status_of_format _ a nm b format, statusLegal_of_legal nm _ _ fields⟩
  flight := nofun
  strobe _ := rfl
  seen := inv.seen

/-- A PARITY in progress leaves FRAME and STATUS as they were readable before it. -/
theorem inv_holdParity {s : State} {b : Frame} {lo hi : BitVec 6} {n : Nat} (inv : Inv s)
    (noEncode : encodeInFlight s = false) (legal : InFlightLegal (.parity b lo hi n)) :
    Inv (holdParity s b lo hi n) where
  frame valid _ := inv.frame valid noEncode
  flight := by rintro f ⟨⟩; exact legal
  strobe := nofun
  seen := inv.seen

theorem inv_finishParity {s : State} {b : Frame} {lo hi : BitVec 6} (inv : Inv s)
    (noEncode : encodeInFlight s = false) : Inv (finishParity b lo hi s) where
  frame valid _ := inv.frame valid noEncode
  flight := nofun
  strobe _ := rfl
  seen := inv.seen

theorem inv_record {s : State} {o : Observation} (inv : Inv s) (legal : ObservationLegal o) : Inv (record s o) where
  frame := inv.frame
  flight := inv.flight
  strobe := inv.strobe
  seen := List.forall_mem_cons.mpr ⟨legal, inv.seen⟩

theorem inv_recordDrawn {s : State} {o : Observation} (inv : Inv s) (legal : ObservationLegal o) :
    Inv (recordDrawn s o) where
  frame := inv.frame
  flight := inv.flight
  strobe := inv.strobe
  seen := List.forall_mem_cons.mpr ⟨legal, inv.seen⟩

/-! ## Edges, reads and steps keep the invariant -/

theorem inv_of_edgeResult {p : Pins} {s s' : State} (inv : Inv s) (h : EdgeResult p s s') : Inv s' := by
  cases h with
  | reset _ => exact inv_resetBlock inv
  | idle _ => exact inv_idleCycle inv
  | holdEncode t ph _ legal => exact inv_holdEncode inv (legal inv.flight)
  | doneEncode t nm b _ legal => exact inv_finishEncode inv (legal inv.flight)
  | holdParity b lo hi n by_ legal =>
    exact inv_holdParity inv (encodeInFlight_eq_false_of_parity (by_.imp_left (·.2.2))) (legal inv.flight)
  | doneParity b lo hi by_ =>
    exact inv_finishParity inv (encodeInFlight_eq_false_of_parity (by_.imp_left (·.2.2)))

/-- A read records only what the invariant says of the registers, a number of the width asked for, or a value marked as not
stated. -/
theorem inv_of_readResult {r : ReadItem} {s s' : State} (inv : Inv s) (h : ReadResult r s s') : Inv s' := by
  have readable (hr : frameReadable s = true) :
      FrameShape s.frame ∧ StatusMatches s.frame s.status ∧ StatusLegal s.status :=
    inv.frame ((frameReadable_iff s).mp hr).1 ((frameReadable_iff s).mp hr).2
  cases h with
  | frame hr => exact inv_record inv (readable hr).1
  | cells p n _ inside => exact inv_record inv ⟨inside, memRead_lt s.frame p n⟩
  | status hr _ => exact inv_record inv fun _ => (readable hr).2.2
  | statusOpen _ _ => exact inv_recordDrawn inv nofun
  | pbit _ => exact inv_record inv trivial
  | frameValid => exact inv_record inv trivial
  | pbitValid => exact inv_record inv trivial
  | busy => exact inv_record inv trivial
  | done => exact inv_record inv trivial
  | taRequest => exact inv_record inv fun a w hw => inRangeCT_of_statedTaT inv (statedTaT_of_taRequest hw)
  | taReq => exact inv_record inv trivial
  | taSel a _ => exact inv_record inv trivial
  | taSelOpen _ => exact inv_recordDrawn inv trivial
  | taT w stated => exact inv_record inv fun _ => inRangeCT_of_statedTaT inv stated
  | taTOpen _ => exact inv_recordDrawn inv nofun

/-- Settles O41: after reset nothing is valid, in progress, strobed or read. -/
theorem resetMeetsTheInvariant : Obligations.ResetMeetsTheInvariant :=
  ⟨nofun, nofun, nofun, nofun⟩

/-- Settles O42: every next state of a step is one of the named updates, and each of them keeps the invariant. -/
theorem everyStepKeepsTheInvariant : Obligations.EveryStepKeepsTheInvariant := by
  intro s s' inv h
  cases step_next s s' h with
  | edge p r _ by_ edge =>
    rcases by_ with ⟨-, -, rfl⟩ | ⟨rest, -, rfl⟩
    · exact inv_of_edgeResult inv edge
    · exact inv_of_edgeResult (inv_setScript inv rest) edge
  | reset rest _ => exact inv_resetBlock (inv_setScript inv rest)
  | encode c rest t nm nh _ _ ready => exact inv_finishEncode (inv_setScript inv rest) ready.legalNM
  | parity c rest b lo hi _ _ ready =>
    exact inv_finishParity (inv_setScript inv rest) (encodeInFlight_of_idle _ ready.idle)
  | read r _ rest _ result => exact inv_of_readResult (inv_setScript inv rest) result

end Sys2Proof.Proofs
end

