-- ==== Sys2Proof/Proofs/Writers.lean ====
section
/-! Who writes what: FRAME, STATUS and FRAME_VALID belong to ENCODE, PBIT and PBIT_VALID to PARITY, and only a reset clears a
valid flag (`10_state.md` section 3, R26 to R29; `70_reset_and_hazards.md` R190). -/

namespace Sys2Proof.Proofs

open Sys2Proof.Machine Sys2Proof.Safety

/-! ## The edge that a step takes -/

/-- The step from `s` is the clock edge with pins `p` from `r`: the host drives these pins, or drives nothing. -/
def TakesEdge (s : State) (p : Pins) (r : State) : Prop :=
  (s.script = [] ∧ p = idlePins ∧ r = s) ∨ ∃ rest, s.script = .clock p :: rest ∧ r = setScript s rest

/-- The edge finds the block as the step found it. -/
theorem TakesEdge.eq_setScript {s r : State} {p : Pins} (h : TakesEdge s p r) : ∃ acts, r = setScript s acts := by
  rcases h with ⟨-, -, rfl⟩ | ⟨rest, -, rfl⟩
  · exact ⟨r.script, rfl⟩
  · exact ⟨rest, rfl⟩

/-- A strobe that is high is driven by the host. -/
theorem TakesEdge.driven {s r : State} {p : Pins} (h : TakesEdge s p r) (high : p.rst = true ∨ p.start = true) :
    ∃ rest, s.script = .clock p :: rest := by
  rcases h with ⟨-, rfl, -⟩ | ⟨rest, hs, -⟩
  · rcases high with h | h <;> cases h
  · exact ⟨rest, hs⟩

theorem TakesEdge.resets {s r : State} {p : Pins} (h : TakesEdge s p r) (rst : p.rst = true) : Resets s := by
  obtain ⟨rest, hs⟩ := h.driven (.inl rst)
  exact .inr ⟨p, rest, hs, rst⟩

theorem TakesEdge.encodes {s r : State} {p : Pins} (h : TakesEdge s p r)
    (by_ : p.start = true ∧ p.op = 0 ∨ encodeInFlight r = true) : Encodes s := by
  rcases by_ with ⟨start, op⟩ | inFlight
  · obtain ⟨rest, hs⟩ := h.driven (.inr start)
    exact .inr (.inl ⟨p, rest, hs, start, op⟩)
  · obtain ⟨acts, rfl⟩ := h.eq_setScript
    exact .inr (.inr inFlight)

theorem TakesEdge.parities {s r : State} {p : Pins} (h : TakesEdge s p r)
    (by_ : p.start = true ∧ p.op = 1 ∧ r.inflight = none ∨ parityInFlight r = true) : Parities s := by
  rcases by_ with ⟨start, op, -⟩ | inFlight
  · obtain ⟨rest, hs⟩ := h.driven (.inr start)
    exact .inr (.inl ⟨p, rest, hs, start, op⟩)
  · obtain ⟨acts, rfl⟩ := h.eq_setScript
    exact .inr (.inr inFlight)

/-! ## What a step can do to the results -/

/-- What a step can do to FRAME, STATUS and FRAME_VALID. -/
inductive FrameEffect (s s' : State) : Prop where
  | kept (frame : s'.frame = s.frame) (status : s'.status = s.status) (valid : s'.frameValid = s.frameValid)
  | reset (by_ : Resets s) (valid : s'.frameValid = false)
  /-- An ENCODE is in progress after the step. -/
  | held (by_ : Encodes s) (valid : s'.frameValid = s.frameValid)
  | completed (by_ : Encodes s) (valid : s'.frameValid = true) (idle : s'.busy = false) (strobe : s'.done = true)

/-- What a step can do to PBIT and PBIT_VALID. -/
inductive PbitEffect (s s' : State) : Prop where
  | kept (pbit : s'.pbit = s.pbit) (valid : s'.pbitValid = s.pbitValid)
  | reset (by_ : Resets s) (valid : s'.pbitValid = false)
  /-- A PARITY is in progress after the step. -/
  | held (by_ : Parities s) (valid : s'.pbitValid = s.pbitValid)
  | completed (by_ : Parities s) (valid : s'.pbitValid = true) (idle : s'.busy = false) (strobe : s'.done = true)

theorem frameEffect_of_edge {s r s' : State} {p : Pins} (takes : TakesEdge s p r) (h : EdgeResult p r s') :
    FrameEffect s s' := by
  obtain ⟨acts, rfl⟩ := takes.eq_setScript
  cases h with
  | reset rst => exact .reset (takes.resets rst) rfl
  | idle _ => exact .kept rfl rfl rfl
  | holdEncode t ph by_ _ => exact .held (takes.encodes by_) rfl
  | doneEncode t nm b inFlight _ => exact .completed (takes.encodes (.inr inFlight)) rfl rfl rfl
  | holdParity b lo hi n _ _ => exact .kept rfl rfl rfl
  | doneParity b lo hi _ => exact .kept rfl rfl rfl

theorem pbitEffect_of_edge {s r s' : State} {p : Pins} (takes : TakesEdge s p r) (h : EdgeResult p r s') :
    PbitEffect s s' := by
  obtain ⟨acts, rfl⟩ := takes.eq_setScript
  cases h with
  | reset rst => exact .reset (takes.resets rst) rfl
  | idle _ => exact .kept rfl rfl
  | holdEncode t ph _ _ => exact .kept rfl rfl
  | doneEncode t nm b _ _ => exact .kept rfl rfl
  | holdParity b lo hi n by_ _ => exact .held (takes.parities by_) rfl
  | doneParity b lo hi by_ => exact .completed (takes.parities by_) rfl rfl rfl

theorem frameEffect_of_step {s s' : State} (h : step s = .next s') : FrameEffect s s' := by
  cases step_next s s' h with
  | edge p r _ takes edge => exact frameEffect_of_edge takes edge
  | reset rest hs => exact .reset (.inl ⟨rest, hs⟩) rfl
  | encode c rest t nm nh hs hd _ => exact .completed (.inl ⟨c, rest, t, hs, hd⟩) rfl rfl rfl
  | parity c rest b lo hi _ _ _ => exact .kept rfl rfl rfl
  | read r _ rest _ result => obtain ⟨o, rfl | rfl⟩ := readResult_frame result <;> exact .kept rfl rfl rfl

theorem pbitEffect_of_step {s s' : State} (h : step s = .next s') : PbitEffect s s' := by
  cases step_next s s' h with
  | edge p r _ takes edge => exact pbitEffect_of_edge takes edge
  | reset rest hs => exact .reset (.inl ⟨rest, hs⟩) rfl
  | encode c rest t nm nh _ _ _ => exact .kept rfl rfl
  | parity c rest b lo hi hs hd _ => exact .completed (.inl ⟨c, rest, b, lo, hi, hs, hd⟩) rfl rfl rfl
  | read r _ rest _ result => obtain ⟨o, rfl | rfl⟩ := readResult_frame result <;> exact .kept rfl rfl

theorem platform_of_edgeResult {p : Pins} {s s' : State} (h : EdgeResult p s s') : s'.platform = s.platform := by
  cases h <;> rfl

/-! ## The obligations -/

/-- Settles O43: of the four effects only a reset clears a valid flag, and only a completion sets it. -/
theorem validFlagsAreClearedOnlyByReset : Obligations.ValidFlagsAreClearedOnlyByReset := by
  intro s s' h
  refine ⟨?frameKept, ?pbitKept, ?frameSet, ?pbitSet⟩
  case frameKept =>
    intro before
    cases frameEffect_of_step h with
    | kept _ _ valid => exact .inl (valid.trans before)
    | reset by_ _ => exact .inr by_
    | held _ valid => exact .inl (valid.trans before)
    | completed _ valid _ _ => exact .inl valid
  case pbitKept =>
    intro before
    cases pbitEffect_of_step h with
    | kept _ valid => exact .inl (valid.trans before)
    | reset by_ _ => exact .inr by_
    | held _ valid => exact .inl (valid.trans before)
    | completed _ valid _ _ => exact .inl valid
  case frameSet =>
    intro before after
    cases frameEffect_of_step h with
    | kept _ _ valid => simp [valid, before] at after
    | reset _ valid => simp [valid] at after
    | held _ valid => simp [valid, before] at after
    | completed by_ _ idle strobe => exact ⟨by_, idle, strobe⟩
  case pbitSet =>
    intro before after
    cases pbitEffect_of_step h with
    | kept _ valid => simp [valid, before] at after
    | reset _ valid => simp [valid] at after
    | held _ valid => simp [valid, before] at after
    | completed by_ _ idle strobe => exact ⟨by_, idle, strobe⟩

/-- Settles O44: the effects that do not keep a result name its writer. -/
theorem eachResultHasOneWriter : Obligations.EachResultHasOneWriter := by
  intro s s' h
  constructor
  · intro changed
    cases frameEffect_of_step h with
    | kept frame status _ => exact (changed.elim (· frame) (· status)).elim
    | reset by_ _ => exact .inr by_
    | held by_ _ => exact .inl by_
    | completed by_ _ _ _ => exact .inl by_
  · intro changed
    cases pbitEffect_of_step h with
    | kept pbit _ => exact (changed pbit).elim
    | reset by_ _ => exact .inr by_
    | held by_ _ => exact .inl by_
    | completed by_ _ _ _ => exact .inl by_

/-- Settles O45: none of the named updates writes the platform. -/
theorem noStepChangesTheTimeArithmetic : Obligations.NoStepChangesTheTimeArithmetic := by
  intro s s' h
  have platform : s'.platform = s.platform := by
    cases step_next s s' h with
    | edge p r _ takes edge =>
      obtain ⟨acts, rfl⟩ := TakesEdge.eq_setScript takes
      exact (platform_of_edgeResult edge).trans (setScript_platform s acts)
    | reset rest _ => rfl
    | encode c rest t nm nh _ _ _ => rfl
    | parity c rest b lo hi _ _ _ => rfl
    | read r _ rest _ result => obtain ⟨o, rfl | rfl⟩ := readResult_frame result <;> rfl
  exact ⟨platform, fun t a => by rw [platform]⟩

end Sys2Proof.Proofs
end

