-- ==== Sys2Proof/Proofs/Steps.lean ====
section
/-! The step by the host's next action, and the clock edge by what is in progress: commands, reset, the idle block
(`10_state.md` sections 1 and 7, `70_reset_and_hazards.md` section 1). -/

namespace Sys2Proof.Proofs

open Sys2Proof.Machine Sys2Proof.Safety

/-! ## The step -/

theorem step_of_empty {s : State} (h : s.script = []) : step s = clockEdge idlePins s := by
  unfold step
  rw [h]

theorem step_of_script {s : State} {a : HostAction} {rest : List HostAction} (h : s.script = a :: rest) :
    step s = runAction a (setScript s rest) := by
  unfold step
  rw [h]

/-! ## The clock edge -/

/-- `rst` = 1 overrides every other pin (`60_exceptions.md` R177 (a)). -/
theorem clockEdge_of_rst {p : Pins} (h : p.rst = true) (s : State) : clockEdge p s = .next (resetBlock s) :=
  if_pos h

theorem clockEdge_of_lateAck {p : Pins} (rst : p.rst = false) (late : lateAck p = true) (s : State) :
    clockEdge p s = .refused .protocolViolation := by
  simp [clockEdge, rst, late]

/-- The edge of a busy block, no late acknowledge on the pins. -/
theorem clockEdge_of_inflight {p : Pins} {s : State} {f : InFlight} (rst : p.rst = false) (timely : lateAck p = false)
    (hf : s.inflight = some f) :
    clockEdge p s = if p.start = true then .refused .protocolViolation else advanceInFlight f p s := by
  simp [clockEdge, rst, timely, hf]

/-- The edge of an idle block: any acknowledge, timely or late, is refused. -/
theorem clockEdge_of_idle {p : Pins} {s : State} (rst : p.rst = false) (idle : s.inflight = none) :
    clockEdge p s = if p.taAck = true then .refused .protocolViolation
      else if p.start = true then acceptCommand p s else .next (idleCycle s) := by
  cases ack : p.taAck <;> simp [clockEdge, rst, idle, lateAck, ack]

/-- Without a command, an acknowledge or a reset an idle block stays idle (`70_reset_and_hazards.md` R191). -/
theorem clockEdge_of_quiet {p : Pins} {s : State} (rst : p.rst = false) (start : p.start = false) (ack : p.taAck = false)
    (idle : s.inflight = none) : clockEdge p s = .next (idleCycle s) := by
  simp [clockEdge_of_idle rst idle, start, ack]

/-! ## The obligations -/

/-- Settles O6: the fetched action is the command. -/
theorem stepRunsTheCommandedOperation : Obligations.StepRunsTheCommandedOperation :=
  fun _ _ _ script => step_of_script script

/-- Settles O7: the placed word stands at the head of the script, and its ports decode to the operation read from it. -/
theorem placedWordIsTheNextOperation : Obligations.PlacedWordIsTheNextOperation := by
  intro s nbits w i h
  have decoded : decode (tablePorts nbits w) = i := Option.some.inj h
  rw [← decoded]
  exact step_of_script (s := s.withFetchWord nbits w) rfl

/-- Settles O8: either form of reset leaves the reset block with the rest of the script. -/
theorem resetClearsFlagsAndAbandonsTheOperation : Obligations.ResetClearsFlagsAndAbandonsTheOperation := by
  intro s a rest script resets
  have answer : step s = .next (resetBlock (setScript s rest)) := by
    rw [step_of_script script]
    rcases resets with rfl | ⟨p, rfl, rst⟩
    · rfl
    · exact clockEdge_of_rst rst _
  exact ⟨_, answer, rfl, rfl, rfl, rfl, rfl, rfl, rfl, rfl⟩

/-- Settles O9: the fields of the reset state. -/
theorem resetStateHasTheStatedValues : Obligations.ResetStateHasTheStatedValues :=
  ⟨rfl, rfl, rfl, rfl, rfl, rfl⟩

/-- Settles O10: both steps are the quiet edge of an idle block. -/
theorem nothingHappensWithoutACommand : Obligations.NothingHappensWithoutACommand := by
  intro s idle
  constructor
  · intro script
    rw [step_of_empty script]
    exact clockEdge_of_quiet rfl rfl rfl idle
  · intro p rest script rst start ack
    rw [step_of_script script]
    exact clockEdge_of_quiet rst start ack idle

end Sys2Proof.Proofs
end

