-- ==== Sys2Proof/Proofs/Reads.lean ====
section
/-! The host's reads: what each records, when it answers, and the one fault of the machine (`20_memory.md` section 4,
`60_exceptions.md` R170, R171). -/

namespace Sys2Proof.Proofs

open Sys2Proof.Machine Sys2Proof.Safety

/-! ## What the ports show -/

/-- BUSY and the request outputs do not see what the host does next. -/
@[simp] theorem setScript_busy (s : State) (acts : List HostAction) : (setScript s acts).busy = s.busy := rfl
@[simp] theorem setScript_taRequest (s : State) (acts : List HostAction) : taRequest (setScript s acts) = taRequest s := rfl

/-- `MemRead` gives the number the cells hold (`20_memory.md` R54). -/
theorem memRead_eq_field {p n : Nat} (f : Frame) : memRead f p n = field f p n := by
  have cells (k : Nat) (hk : k < n) : f.getLsbD (p + k) = (field f p n).testBit k := by
    rw [field, BitVec.testBit_toNat, BitVec.getLsbD_extractLsb']
    simp [hk]
  rw [memRead_of_cells f p n (field f p n) cells]
  exact Nat.mod_eq_of_lt (BitVec.isLt _)

theorem statedTaSel_eq_some_iff (s : State) (a : Advance) : statedTaSel s = some a ↔ ∃ w, taRequest s = some (a, w) := by
  simp [statedTaSel]

theorem statedTaSel_eq_none_iff (s : State) : statedTaSel s = none ↔ taRequest s = none := by
  simp [statedTaSel]

theorem statedTaT_eq_none_iff (s : State) : statedTaT s = none ↔ encodeInFlight s = false := by
  unfold statedTaT encodeInFlight
  rcases s.inflight with _ | ⟨t, ph⟩ | ⟨b, lo, hi, n⟩ <;> simp

/-! ## When a read answers -/

theorem readGuarded_of_readable {readable : Bool} (h : readable = true) (s' : State) :
    readGuarded readable s' = .next s' :=
  if_pos h

theorem readGuarded_of_not_readable {readable : Bool} (h : readable = false) (s' : State) :
    readGuarded readable s' = .refused .readWithoutValue := by
  simp [readGuarded, h]

theorem hostRead_cells_of_inside {p n : Nat} (h : p + n ≤ 59) (s : State) :
    hostRead (.cells p n) s = readGuarded (frameReadable s) (record s (.cells p n (memRead s.frame p n))) :=
  if_pos h

theorem hostRead_cells_of_outside {p n : Nat} (h : 59 < p + n) (s : State) :
    hostRead (.cells p n) s = .fault .noSuchCell :=
  if_neg (Nat.not_le.mpr h)

theorem readGuarded_ne_fault (readable : Bool) (s' : State) (r : Fault) : readGuarded readable s' ≠ .fault r := by
  cases readable <;> exact nofun

/-- A read faults only for cells beyond the frame (`20_memory.md` R50). -/
theorem hostRead_eq_fault_iff (i : ReadItem) (s : State) (r : Fault) :
    hostRead i s = .fault r ↔ r = .noSuchCell ∧ ∃ p n, i = .cells p n ∧ 59 < p + n := by
  cases i with
  | frame => simp [hostRead, readGuarded_ne_fault]
  | cells p n =>
    rcases Nat.lt_or_ge 59 (p + n) with outside | inside
    · simp [hostRead_cells_of_outside outside, outside]
    · simp [hostRead_cells_of_inside inside, readGuarded_ne_fault, inside]
  | status => simp [hostRead, readGuarded_ne_fault]
  | pbit => simp [hostRead, readGuarded_ne_fault]
  | frameValid => simp [hostRead]
  | pbitValid => simp [hostRead]
  | busy => simp [hostRead]
  | done => simp [hostRead]
  | taRequest => simp [hostRead]
  | taReq => simp [hostRead]
  | taSel => simp [hostRead]
  | taT => simp [hostRead]

/-! ## The obligations -/

/-- Settles O13: one case for each thing a read can record. -/
theorem readRecordsAndChangesNothingElse : Obligations.ReadRecordsAndChangesNothingElse := by
  intro s t r rest script h
  rw [step_of_script script] at h
  cases hostRead_next r _ t h with
  | frame _ => exact ⟨_, rfl, .inl rfl, by simp⟩
  | cells p n _ _ => exact ⟨_, rfl, .inl rfl, by simp [memRead_eq_field]⟩
  | status _ idle =>
    rw [setScript_busy] at idle
    exact ⟨_, rfl, .inl rfl, by simp [idle]⟩
  | statusOpen _ busy =>
    rw [setScript_busy] at busy
    exact ⟨_, rfl, .inr (.inl ⟨rfl, busy⟩), by simp [busy]⟩
  | pbit _ => exact ⟨_, rfl, .inl rfl, by simp⟩
  | frameValid => exact ⟨_, rfl, .inl rfl, by simp⟩
  | pbitValid => exact ⟨_, rfl, .inl rfl, by simp⟩
  | busy => exact ⟨_, rfl, .inl rfl, by simp⟩
  | done => exact ⟨_, rfl, .inl rfl, by simp⟩
  | taRequest => exact ⟨_, rfl, .inl rfl, by simp⟩
  | taReq => exact ⟨_, rfl, .inl rfl, by simp⟩
  | taSel a stated =>
    obtain ⟨w, request⟩ : ∃ w, taRequest s = some (a, w) := (statedTaSel_eq_some_iff _ a).mp stated
    exact ⟨_, rfl, .inl rfl, by simp [request]⟩
  | taSelOpen notStated =>
    have request : taRequest s = none := (statedTaSel_eq_none_iff _).mp notStated
    exact ⟨_, rfl, .inr (.inr (.inl ⟨rfl, request⟩)), by simp [request]⟩
  | taT w stated =>
    obtain ⟨time, phase, inFlight, rfl⟩ : ∃ time phase, s.inflight = some (.encode time phase) ∧ w = wordOfCt time :=
      (statedTaT_eq_some_iff _ w).mp stated
    exact ⟨_, rfl, .inl rfl, by simp [inFlight, encodeInFlight]⟩
  | taTOpen notStated =>
    have noEncode : encodeInFlight s = false := (statedTaT_eq_none_iff _).mp notStated
    have no_time (time : CalendarTime) (phase : EncodePhase) : s.inflight ≠ some (.encode time phase) := fun inFlight => by
      simp [encodeInFlight, inFlight] at noEncode
    exact ⟨_, rfl, .inr (.inr (.inr ⟨rfl, noEncode⟩)), by simp [noEncode, no_time]⟩

/-- Settles O14: the guard of each read is the condition of its row. -/
theorem readWithoutValueIsRefused : Obligations.ReadWithoutValueIsRefused := by
  intro s
  refine ⟨⟨fun readable => ?frameAnswers, fun forbidden => ?frameRefuses⟩, fun readable => ?pbitAnswers,
    fun forbidden => ?pbitRefuses⟩
  case frameAnswers =>
    have open_ (s' : State) := readGuarded_of_readable ((frameReadable_iff s).mpr readable) s'
    exact ⟨⟨_, open_ _⟩, ⟨_, open_ _⟩, fun p n inside => ⟨_, (hostRead_cells_of_inside inside s).trans (open_ _)⟩⟩
  case frameRefuses =>
    have closed (s' : State) : readGuarded (frameReadable s) s' = .refused .readWithoutValue :=
      readGuarded_of_not_readable (by rcases forbidden with h | h <;> simp [frameReadable, h]) s'
    exact ⟨closed _, closed _, fun p n inside => (hostRead_cells_of_inside inside s).trans (closed _)⟩
  case pbitAnswers => exact ⟨_, readGuarded_of_readable ((pbitReadable_iff s).mpr readable) _⟩
  case pbitRefuses =>
    exact readGuarded_of_not_readable (by rcases forbidden with h | h <;> simp [pbitReadable, h]) _

end Sys2Proof.Proofs
end

