-- ==== Sys2Proof/Proofs/Handshake.lean ====
section
/-! When an operation, a clock edge and a step answer, and what is refused otherwise (`60_exceptions.md` R170 to R177;
`70_reset_and_hazards.md` sections 1, 3). -/

namespace Sys2Proof.Proofs

open Sys2Proof.Machine Sys2Proof.Safety

/-! ## Operations -/

theorem exec_of_busy {s : State} (busy : s.busy = true) (i : Instr) : exec i s = .refused .protocolViolation := by
  cases i with
  | encode t => exact if_pos busy
  | parity b lo hi => exact if_pos busy

theorem accept_of_idle {s : State} (idle : s.busy = false) (out : Out) : accept s out = out := by
  simp [accept, idle]

/-- Accepting adds one refusal: that of a command while busy (`60_exceptions.md` R177 (c)). -/
theorem accept_eq_refused_iff (s : State) (out : Out) (r : Refusal) : accept s out = .refused r ↔
    (s.busy = true ∧ r = .protocolViolation) ∨ (s.busy = false ∧ out = .refused r) := by
  cases busy : s.busy <;> simp [accept, busy, eq_comm (a := r)]

/-- The tests ENCODE makes on its answers, and the refusal of each (`41_encode.md` R113 (b), (c)). -/
theorem encodeAnswered_eq_refused_iff (d : Dst) (nm nh : Option CalendarTime) (s : State) (r : Refusal) :
    encodeAnswered d nm nh s = .refused r ↔
      (r = .timeArithmeticUnresolved ∧ (nm = none ∨ nh = none)) ∨
      (r = .invalidCalendarTime ∧ ∃ x y, nm = some x ∧ nh = some y ∧ (inRangeCT x = false ∨ y.dst = .reserved)) := by
  cases nm with
  | none => simp [encodeAnswered, eq_comm (a := r)]
  | some x =>
    cases nh with
    | none => simp [encodeAnswered, eq_comm (a := r)]
    | some y =>
      cases legal : inRangeCT x <;> by_cases known : y.dst = .reserved <;>
        simp [encodeAnswered, nextHourDst, legal, known, eq_comm (a := r)]

/-- The range test of PARITY fails on a reversed range and on one that leaves the frame (`40_parity.md` R104). -/
theorem legalRange_eq_false_iff (lo hi : BitVec 6) :
    legalRange lo hi = false ↔ hi.toNat < lo.toNat ∨ 59 < hi.toNat := by
  rw [← Bool.not_eq_true, legalRange_iff]
  omega

theorem exec_parity_of_ill_formed {s : State} {b : Frame} {lo hi : BitVec 6} (idle : s.busy = false)
    (range : hi.toNat < lo.toNat ∨ 59 < hi.toNat) : exec (.parity b lo hi) s = .refused .illFormedRange := by
  rw [exec, execParity, accept_of_idle idle, (legalRange_eq_false_iff lo hi).mpr range]
  rfl

/-- No operation takes an exception (`60_exceptions.md` R170). -/
theorem exec_ne_fault (i : Instr) (s : State) (r : Fault) : exec i s ≠ .fault r := by
  cases i with
  | encode t => exact exec_encode_ne_fault t s r
  | parity b lo hi =>
    rw [exec, execParity]
    apply accept_ne_fault
    split <;> exact nofun

/-! ## No edge faults -/

theorem ite_ne_fault {c : Prop} [Decidable c] {a b : Out} {r : Fault} (ha : a ≠ .fault r) (hb : b ≠ .fault r) :
    (if c then a else b) ≠ .fault r := by
  split
  · exact ha
  · exact hb

theorem acceptCommand_ne_fault (p : Pins) (s : State) (r : Fault) : acceptCommand p s ≠ .fault r := by
  refine ite_ne_fault ?encode ?parity
  case encode =>
    unfold acceptEncode
    cases p.t with
    | torn => exact nofun
    | whole w => exact ite_ne_fault nofun nofun
  case parity =>
    unfold acceptParity
    split
    · exact ite_ne_fault nofun nofun
    all_goals exact nofun

theorem takeNextMinute_ne_fault (t : CalendarTime) (p : Pins) (s : State) (r : Fault) :
    takeNextMinute t p s ≠ .fault r := by
  unfold takeNextMinute
  cases p.taR with
  | torn => exact nofun
  | whole w => exact ite_ne_fault nofun nofun

theorem takeNextHour_ne_fault (t nm : CalendarTime) (p : Pins) (s : State) (r : Fault) :
    takeNextHour t nm p s ≠ .fault r := by
  unfold takeNextHour
  cases p.taR with
  | torn => exact nofun
  | whole w => exact ite_ne_fault nofun nofun

theorem advanceInFlight_ne_fault (f : InFlight) (p : Pins) (s : State) (r : Fault) :
    advanceInFlight f p s ≠ .fault r := by
  cases f with
  | parity b lo hi n => exact ite_ne_fault nofun nofun
  | encode t ph =>
    cases ph with
    | request60 => exact ite_ne_fault nofun nofun
    | wait60 => exact ite_ne_fault (takeNextMinute_ne_fault t p s r) nofun
    | request3600 nm => exact ite_ne_fault nofun nofun
    | wait3600 nm => exact ite_ne_fault (takeNextHour_ne_fault t nm p s r) nofun
    | filling nm d n => exact ite_ne_fault nofun nofun

/-- A clock edge takes no exception, whatever the pins carry. -/
theorem clockEdge_ne_fault (p : Pins) (s : State) (r : Fault) : clockEdge p s ≠ .fault r := by
  refine ite_ne_fault nofun (ite_ne_fault nofun ?_)
  split
  · exact ite_ne_fault nofun (advanceInFlight_ne_fault _ p s r)
  · exact ite_ne_fault nofun (ite_ne_fault (acceptCommand_ne_fault p s r) nofun)

/-! ## When an edge answers -/

/-- The outcome is a next state. -/
def Answers (o : Out) : Prop := ∃ s, o = .next s

@[simp] theorem answers_next (s : State) : Answers (.next s) := ⟨s, rfl⟩

@[simp] theorem not_answers_refused (r : Refusal) : ¬ Answers (.refused r) := fun ⟨_, h⟩ => nomatch h

@[simp] theorem not_answers_fault (r : Fault) : ¬ Answers (.fault r) := fun ⟨_, h⟩ => nomatch h

@[simp] theorem answers_ite (c : Prop) [Decidable c] (a b : Out) :
    Answers (if c then a else b) ↔ if c then Answers a else Answers b := by
  split <;> rfl

/-- A command is accepted exactly with whole and legal operands of its format (`70_reset_and_hazards.md` R194, R196). -/
theorem answers_acceptCommand_iff (p : Pins) (s : State) : Answers (acceptCommand p s) ↔ OperandsKept p := by
  unfold acceptCommand OperandsKept
  split
  · unfold acceptEncode
    cases p.t <;> simp
  · unfold acceptParity
    cases p.pdata <;> cases p.plo <;> cases p.phi <;> simp

theorem answers_takeNextMinute_iff (t : CalendarTime) (p : Pins) (s : State) :
    Answers (takeNextMinute t p s) ↔ ∃ w, p.taR = .whole w ∧ inRangeCT (ctOfWord w) = true := by
  unfold takeNextMinute
  cases p.taR <;> simp

theorem answers_takeNextHour_iff (t nm : CalendarTime) (p : Pins) (s : State) :
    Answers (takeNextHour t nm p s) ↔ ∃ w, p.taR = .whole w ∧ nextHourDst (ctOfWord w) ≠ .reserved := by
  unfold takeNextHour
  cases p.taR <;> simp

/-- An edge of an operation in progress answers exactly when its acknowledge, if any, is awaited, whole and legal. -/
theorem answers_advanceInFlight_iff (f : InFlight) (p : Pins) (s : State) :
    Answers (advanceInFlight f p s) ↔ (p.taAck = true → AckKept f p) := by
  cases f with
  | parity b lo hi n => simp [advanceInFlight, AckKept]
  | encode t ph =>
    cases ph with
    | request60 => simp [advanceInFlight, advanceEncode, AckKept]
    | wait60 => simp [advanceInFlight, advanceEncode, AckKept, answers_takeNextMinute_iff]
    | request3600 nm => simp [advanceInFlight, advanceEncode, AckKept]
    | wait3600 nm => simp [advanceInFlight, advanceEncode, AckKept, answers_takeNextHour_iff, nextHourDst]
    | filling nm d n => simp [advanceInFlight, advanceEncode, AckKept]

theorem answers_clockEdge_iff (p : Pins) (s : State) : Answers (clockEdge p s) ↔ PinsKept s p := by
  unfold PinsKept
  rw [← lateAck_eq_false]
  cases rst : p.rst with
  | true => simp [clockEdge_of_rst rst]
  | false =>
    cases late : lateAck p with
    | true => simp [clockEdge_of_lateAck rst late]
    | false =>
      cases hf : s.inflight with
      | none => simp [clockEdge_of_idle rst hf, answers_acceptCommand_iff]
      | some f => simp [clockEdge_of_inflight rst late hf, answers_advanceInFlight_iff]

theorem answers_exec_iff (i : Instr) (s : State) : Answers (exec i s) ↔ CommandKept s i := by
  cases i with
  | encode t =>
    constructor
    · rintro ⟨s', h⟩
      obtain ⟨nm, nh, ready, -⟩ := (exec_encode_next t s s').mp h
      exact ⟨nm, nh, ready⟩
    · rintro ⟨nm, nh, ready⟩
      exact ⟨_, exec_encode_of_ready ready⟩
  | parity b lo hi =>
    constructor
    · rintro ⟨s', h⟩
      exact ((exec_parity_next b lo hi s s').mp h).1
    · intro ready
      exact ⟨_, (exec_parity_next b lo hi s _).mpr ⟨ready, rfl⟩⟩

/-- Whether an operation has a meaning does not depend on what the host does next. -/
theorem commandKept_setScript (s : State) (acts : List HostAction) (i : Instr) :
    CommandKept (setScript s acts) i ↔ CommandKept s i := by
  cases i with
  | encode t =>
    exact exists₂_congr fun nm nh => ⟨fun ready => { ready with }, fun ready => { ready with }⟩
  | parity b lo hi => exact ⟨fun ready => { ready with }, fun ready => { ready with }⟩

theorem answers_readGuarded_iff (readable : Bool) (s' : State) : Answers (readGuarded readable s') ↔ readable = true := by
  simp [readGuarded]

theorem answers_hostRead_iff (r : ReadItem) (s : State) : Answers (hostRead r s) ↔ ReadKept s r := by
  cases r with
  | frame => exact (answers_readGuarded_iff _ _).trans (frameReadable_iff s)
  | cells p n =>
    rcases Nat.lt_or_ge 59 (p + n) with outside | inside
    · rw [hostRead_cells_of_outside outside]
      exact iff_of_false (not_answers_fault _) fun kept => absurd kept.1 (Nat.not_le.mpr outside)
    · rw [hostRead_cells_of_inside inside, answers_readGuarded_iff, frameReadable_iff]
      exact (and_iff_right inside).symm
  | status => exact (answers_readGuarded_iff _ _).trans (frameReadable_iff s)
  | pbit => exact (answers_readGuarded_iff _ _).trans (pbitReadable_iff s)
  | frameValid => exact iff_of_true ⟨_, rfl⟩ trivial
  | pbitValid => exact iff_of_true ⟨_, rfl⟩ trivial
  | busy => exact iff_of_true ⟨_, rfl⟩ trivial
  | done => exact iff_of_true ⟨_, rfl⟩ trivial
  | taRequest => exact iff_of_true ⟨_, rfl⟩ trivial
  | taReq => exact iff_of_true ⟨_, rfl⟩ trivial
  | taSel => exact iff_of_true ⟨_, rfl⟩ trivial
  | taT => exact iff_of_true ⟨_, rfl⟩ trivial

/-- Driving nothing keeps the protocol, whatever is in progress. -/
theorem pinsKept_idlePins (s : State) : PinsKept s idlePins := by
  unfold PinsKept
  cases s.inflight <;> simp [idlePins]

/-! ## What an edge refuses, and the pins it ignores -/

/-- An acknowledge while no answer is awaited is refused, the cycle of the request included (`60_exceptions.md` R171,
log 7). -/
theorem clockEdge_of_unawaited_ack {p : Pins} {s : State} (rst : p.rst = false) (ack : p.taAck = true)
    (unawaited : ∀ t nm, s.inflight ≠ some (.encode t .wait60) ∧ s.inflight ≠ some (.encode t (.wait3600 nm))) :
    clockEdge p s = .refused .protocolViolation := by
  cases late : lateAck p with
  | true => exact clockEdge_of_lateAck rst late s
  | false =>
    cases hf : s.inflight with
    | none => rw [clockEdge_of_idle rst hf, if_pos ack]
    | some f =>
      have refuses : advanceInFlight f p s = .refused .protocolViolation := by
        cases f with
        | parity b lo hi n => exact if_pos ack
        | encode t ph =>
          cases ph with
          | request60 => exact if_pos ack
          | wait60 => exact absurd hf (unawaited t t).1
          | request3600 nm => exact if_pos ack
          | wait3600 nm => exact absurd hf (unawaited t nm).2
          | filling nm d n => exact if_pos ack
      rw [clockEdge_of_inflight rst late hf, refuses, ite_self]

/-- A torn answer is refused at its acknowledge (`60_exceptions.md` R171, log 11). -/
theorem advanceInFlight_of_torn_answer {p : Pins} {t : CalendarTime} {ph : EncodePhase} (s : State)
    (awaits : ph = .wait60 ∨ ∃ nm, ph = .wait3600 nm) (ack : p.taAck = true) (torn : p.taR = .torn) :
    advanceInFlight (.encode t ph) p s = .refused .protocolViolation := by
  rcases awaits with rfl | ⟨nm, rfl⟩
  · simp [advanceInFlight, advanceEncode, takeNextMinute, ack, torn]
  · simp [advanceInFlight, advanceEncode, takeNextHour, ack, torn]

/-- A torn operand of the selected format is refused at acceptance (`70_reset_and_hazards.md` R196). -/
theorem acceptCommand_of_torn {p : Pins} (s : State)
    (torn : p.op = 0 ∧ p.t = .torn ∨ p.op = 1 ∧ (p.pdata = .torn ∨ p.plo = .torn ∨ p.phi = .torn)) :
    acceptCommand p s = .refused .protocolViolation := by
  rcases torn with ⟨op, torn⟩ | ⟨op, torn⟩
  · simp [acceptCommand, acceptEncode, op, torn]
  · simp only [acceptCommand, op, acceptParity]
    rcases torn with torn | torn | torn
    · simp [torn]
    · cases p.pdata <;> simp [torn]
    · cases p.pdata <;> cases p.plo <;> simp [torn]

/-- While an operation is in progress only the acknowledge and `ta_r` matter (`20_memory.md` R66). -/
theorem advanceInFlight_congr {p q : Pins} (ack : p.taAck = q.taAck) (taR : p.taR = q.taR) (f : InFlight) (s : State) :
    advanceInFlight f p s = advanceInFlight f q s := by
  cases f with
  | parity b lo hi n => simp only [advanceInFlight, ack]
  | encode t ph => cases ph <;> simp only [advanceInFlight, advanceEncode, takeNextMinute, takeNextHour, ack, taR]

/-- Two cycles with the same strobes and the same `ta_r` differ only where a command is accepted. -/
theorem clockEdge_congr {s : State} {p q : Pins} (rst : p.rst = q.rst) (start : p.start = q.start)
    (ack : p.taAck = q.taAck) (late : p.taLate = q.taLate) (taR : p.taR = q.taR)
    (accepted : s.inflight = none → p.start = true → acceptCommand p s = acceptCommand q s) :
    clockEdge p s = clockEdge q s := by
  have same_late : lateAck p = lateAck q := by rw [lateAck, lateAck, ack, late]
  unfold clockEdge
  rw [← rst, ← same_late, ← start, ← ack]
  cases hf : s.inflight with
  | some f => simp only [advanceInFlight_congr ack taR]
  | none =>
    cases hs : p.start with
    | false => simp
    | true => simp only [accepted hf hs]

theorem acceptCommand_congr_encode {p q : Pins} (hp : p.op = 0) (hq : q.op = 0) (t : p.t = q.t) (s : State) :
    acceptCommand p s = acceptCommand q s := by
  simp [acceptCommand, acceptEncode, hp, hq, t]

theorem acceptCommand_congr_parity {p q : Pins} (hp : p.op = 1) (hq : q.op = 1) (pdata : p.pdata = q.pdata)
    (plo : p.plo = q.plo) (phi : p.phi = q.phi) (s : State) : acceptCommand p s = acceptCommand q s := by
  simp [acceptCommand, acceptParity, hp, hq, pdata, plo, phi]

/-! ## The obligations -/

/-- Settles O11: neither an operation nor an edge faults, and a read only beyond the frame. -/
theorem onlyAReadBeyondTheFrameFaults : Obligations.OnlyAReadBeyondTheFrameFaults := by
  refine ⟨exec_ne_fault, fun s r => ?_⟩
  cases script : s.script with
  | nil => simp [step_of_empty script, clockEdge_ne_fault]
  | cons a rest =>
    rw [step_of_script script]
    cases a with
    | reset => simp [runAction]
    | command c => simp [runAction, exec_ne_fault]
    | read i => simp [runAction, hostRead_eq_fault_iff]
    | clock p => simp [runAction, clockEdge_ne_fault]

/-- Settles O12: one case for each kind of action. -/
theorem stepAnswersExactlyWhenTheHostKeepsItsObligations :
    Obligations.StepAnswersExactlyWhenTheHostKeepsItsObligations := by
  intro s
  change Answers (step s) ↔ HostKept s
  unfold HostKept
  cases script : s.script with
  | nil =>
    rw [step_of_empty script]
    exact iff_of_true ((answers_clockEdge_iff idlePins s).mpr (pinsKept_idlePins s)) trivial
  | cons a rest =>
    rw [step_of_script script]
    cases a with
    | reset => exact iff_of_true ⟨_, rfl⟩ trivial
    | command c => exact (answers_exec_iff (decode c) _).trans (commandKept_setScript s rest _)
    | read r => exact answers_hostRead_iff r _
    | clock p => exact answers_clockEdge_iff p _

/-- Settles O20: the range test of PARITY. -/
theorem parityRefusesAnIllFormedRange : Obligations.ParityRefusesAnIllFormedRange :=
  fun s _ _ _ idle range => exec_parity_of_ill_formed ((busy_eq_false s).mpr idle) range

/-- Settles O34: the refusals of acceptance, of the operands and of the answers, in the order the operation tests them. -/
theorem refusalsHaveTheirCause : Obligations.RefusalsHaveTheirCause := by
  constructor
  · intro s t r
    rw [exec, execEncode, accept_eq_refused_iff]
    cases inRangeCT t with
    | false => simp [eq_comm (a := r)]
    | true => simp [encodeAnswered_eq_refused_iff, and_or_left]
  · intro s b lo hi r
    rw [exec, execParity, accept_eq_refused_iff, ← legalRange_eq_false_iff]
    cases legalRange lo hi <;> simp [eq_comm (a := r)]

/-- Settles O35: one refusal of the edge for each breach of the protocol. -/
theorem protocolViolationsAreRefused : Obligations.ProtocolViolationsAreRefused := by
  intro s p rst
  have late_refused (ack : p.taAck = true) (late : p.taLate = true) : clockEdge p s = .refused .protocolViolation :=
    clockEdge_of_lateAck rst (by simp [lateAck, ack, late]) s
  refine ⟨fun busy start => ?startWhileBusy, exec_of_busy, clockEdge_of_unawaited_ack rst, late_refused,
    fun idle ack start torn => ?tornOperand, fun ack start torn awaits => ?tornAnswer⟩
  case startWhileBusy =>
    obtain ⟨f, hf⟩ := Option.isSome_iff_exists.mp busy
    cases late : lateAck p with
    | true => exact clockEdge_of_lateAck rst late s
    | false => rw [clockEdge_of_inflight rst late hf, if_pos start]
  case tornOperand =>
    rw [clockEdge_of_idle rst ((busy_eq_false s).mp idle), ack, start]
    exact acceptCommand_of_torn s torn
  case tornAnswer =>
    cases late : lateAck p with
    | true => exact clockEdge_of_lateAck rst late s
    | false =>
      obtain ⟨t, nm, hf | hf⟩ := awaits <;> rw [clockEdge_of_inflight rst late hf, start]
      · exact advanceInFlight_of_torn_answer s (.inl rfl) ack torn
      · exact advanceInFlight_of_torn_answer s (.inr ⟨nm, rfl⟩) ack torn

/-- Settles O36: only the acceptance of a command samples the operand ports, and only those of its format. -/
theorem operandPortsMatterOnlyAtAcceptance : Obligations.OperandPortsMatterOnlyAtAcceptance := by
  intro s p q rst start ack late taR
  refine ⟨fun closed => ?_, fun hp hq t => ?_, fun hp hq pdata plo phi => ?_⟩
  · refine clockEdge_congr rst start ack late taR fun idle started => ?_
    rcases closed with busy | no_start
    · simp [State.busy, idle] at busy
    · simp [no_start] at started
  · exact clockEdge_congr rst start ack late taR fun _ _ => acceptCommand_congr_encode hp hq t s
  · exact clockEdge_congr rst start ack late taR fun _ _ => acceptCommand_congr_parity hp hq pdata plo phi s

end Sys2Proof.Proofs
end

