-- ==== Sys2Proof/Proofs/Effects.lean ====
section
/-! What the operations write and leave: the order of bits in cells (`20_memory.md` section 2), the cells of one ENCODE (R58),
the effect of PARITY (`40_parity.md` section 2) and the frame of ENCODE (`41_encode.md` sections 1, 2). -/

namespace Sys2Proof.Proofs

open Sys2Proof.Machine Sys2Proof.Safety

/-! ## Cells -/

/-- `MemWrite` puts bit k of the number into cell p + k (`20_memory.md` R53). -/
theorem getLsbD_memWrite_of_inside (f : Frame) {p n k : Nat} (v : Nat) (hk : k < n) (h59 : p + n ≤ 59) :
    (memWrite f p n v).getLsbD (p + k) = v.testBit k := by
  rw [getLsbD_memWrite, if_pos (by omega), Nat.add_sub_cancel_left]

theorem getLsbD_memWrite_of_outside (f : Frame) {p n q : Nat} (v : Nat) (h : q < p ∨ p + n ≤ q) :
    (memWrite f p n v).getLsbD q = f.getLsbD q := by
  rw [getLsbD_memWrite, if_neg (by omega)]

/-- The positions of the data groups, in three runs around the parity cells. -/
theorem dataGroups_positions (a b : Dst) (nm : CalendarTime) :
    ((dataGroups a nm b).flatMap fun g : CellGroup => List.range' g.pos g.width) =
      List.range' 0 28 ++ List.range' 29 6 ++ List.range' 36 22 :=
  rfl

/-- A parity cell holds the parity of its range in the finished frame (`41_encode.md` R135). -/
theorem encodeCore_parity_cells (old : Frame) (a b : Dst) (nm : CalendarTime) :
    (encodeCore old a nm b).getLsbD 28 = par (encodeCore old a nm b) 21 28 ∧
    (encodeCore old a nm b).getLsbD 35 = par (encodeCore old a nm b) 29 35 ∧
    (encodeCore old a nm b).getLsbD 58 = par (encodeCore old a nm b) 36 58 := by
  simp only [par_eq]
  exact ⟨encodeCore_p1 old a nm b, encodeCore_p2 old a nm b, encodeCore_p3 old a nm b⟩

/-! ## Completion -/

/-- With nothing in progress before it, a completed PARITY changes PBIT, PBIT_VALID and `done`. -/
theorem finishParity_of_idle {s : State} (idle : s.inflight = none) (b : Frame) (lo hi : BitVec 6) :
    finishParity b lo hi s = { s with pbit := par b lo.toNat hi.toNat, pbitValid := true, done := true } := by
  simp only [finishParity, completeParity, ← idle]

/-- With nothing in progress before it, a completed ENCODE changes FRAME, STATUS, FRAME_VALID and `done`. -/
theorem finishEncode_of_idle {s : State} (idle : s.inflight = none) (a b : Dst) (nm : CalendarTime) :
    finishEncode a nm b s = { s with
      frame := (finishEncode a nm b s).frame, status := (finishEncode a nm b s).status,
      frameValid := true, done := true } := by
  simp only [finishEncode, completeEncode, ← idle]

/-! ## The obligations -/

/-- Settles O15: the cells written, the cells left, and the number read back from them. -/
theorem cellsCarryTheLeastSignificantBitFirst : Obligations.CellsCarryTheLeastSignificantBitFirst := by
  intro f p n v h59
  have written (k : Nat) (hk : k < n) : (memWrite f p n v).getLsbD (p + k) = v.testBit k :=
    getLsbD_memWrite_of_inside f v hk h59
  exact ⟨written, fun q => getLsbD_memWrite_of_outside f v, memRead_of_cells _ p n v written⟩

/-- Settles O19: the parity function counts the ones of the range. -/
theorem parityCompletesWithTheRangeParity : Obligations.ParityCompletesWithTheRangeParity := by
  intro s b lo hi ready
  rw [← par_eq, ← finishParity_of_idle ready.idle]
  exact (exec_parity_next b lo hi s _).mpr ⟨ready, rfl⟩

/-- Settles O28: position 16 compares the minutes k and k + 60 of the line, position 17 shows the state of minute k + 1; the
states before and after the change differ. -/
theorem announcementLastsTheHourBeforeAChange : Obligations.AnnouncementLastsTheHourBeforeAChange := by
  intro s t nm nh k x a b ready change now next_minute next_hour
  have format := finishEncode_format ready
  refine ⟨_, exec_encode_of_ready ready, ?announcement, ?zone⟩
  case announcement =>
    rw [format.a1, now, next_hour]
    rcases Nat.lt_or_ge k x with before | after
    · rcases Nat.lt_or_ge (k + 60) x with early | announced
      · simp [before, early]
      · simp [before, announced, change, Nat.not_lt.mpr announced]
    · simp [Nat.not_lt.mpr after, Nat.not_lt.mpr (Nat.le_add_right_of_le after)]
  case zone =>
    rw [format.z1, next_minute]
    rcases Nat.lt_or_ge (k + 1) x with before | after
    · rw [if_pos before, if_neg (Nat.not_le.mpr before)]
    · rw [if_neg (Nat.not_lt.mpr after), if_pos after]

/-- Settles O31: an ENCODE that answers completes an idle block. -/
theorem encodeChangesOnlyItsResults : Obligations.EncodeChangesOnlyItsResults := by
  intro s s' t h
  obtain ⟨nm, nh, ready, rfl⟩ := (exec_encode_next t s s').mp h
  exact ⟨finishEncode_of_idle ready.idle t.dst nh.dst nm, rfl, rfl, rfl⟩

/-- Settles O33: the runs of the data groups and the three parity cells between them are the 59 positions. -/
theorem eachCellIsWrittenExactlyOnce : Obligations.EachCellIsWrittenExactlyOnce := by
  intro old old' a b nm
  obtain ⟨p1, p2, p3⟩ := encodeCore_parity_cells old a b nm
  refine ⟨?_, p1, p2, p3, encodeCore_old old old' a nm b⟩
  rw [dataGroups_positions]
  decide

end Sys2Proof.Proofs
end

