-- ==== Sys2Proof/Proofs/Clocked.lean ====
section
/-! The block cycle by cycle: the exchange with the time-arithmetic primitive (`42_time_arith.md` section 2), and that the
cycles of an operation together are the operation (`00_scope.md` R9). -/

namespace Sys2Proof.Proofs

open Sys2Proof.Machine Sys2Proof.Safety

/-! ## Running a list of actions -/

/-- The actions `acts` take the block from `s` to `s'`, whatever the host does afterwards. -/
def Runs (acts : List HostAction) (s s' : State) : Prop :=
  ∀ rest, steps acts.length (setScript s (acts ++ rest)) = .next (setScript s' rest)

theorem Runs.nil (s : State) : Runs [] s s := fun _ => rfl

theorem Runs.cons {a : HostAction} {acts : List HostAction} {s s₁ s' : State}
    (first : ∀ rest, runAction a (setScript s rest) = .next (setScript s₁ rest)) (more : Runs acts s₁ s') :
    Runs (a :: acts) s s' := by
  intro rest
  have answer : step (setScript s (a :: acts ++ rest)) = .next (setScript s₁ (acts ++ rest)) :=
    (step_of_script rfl).trans (first (acts ++ rest))
  exact (steps_succ acts.length _ _ answer).trans (more rest)

theorem Runs.append {as bs : List HostAction} {s s₁ s' : State} (first : Runs as s s₁) (more : Runs bs s₁ s') :
    Runs (as ++ bs) s s' := by
  intro rest
  rw [List.length_append, List.append_assoc, steps_add _ _ _ _ (first (bs ++ rest))]
  exact more rest

/-! ## Single edges -/

/-- A cycle without a command, an acknowledge or a reset. -/
def Quiet (p : Pins) : Prop := p.rst = false ∧ p.start = false ∧ p.taAck = false

theorem quiet_idlePins : Quiet idlePins := ⟨rfl, rfl, rfl⟩

theorem clockEdge_quiet_of_inflight {p : Pins} {s : State} {f : InFlight} (quiet : Quiet p) (hf : s.inflight = some f) :
    clockEdge p s = advanceInFlight f p s := by
  obtain ⟨rst, start, ack⟩ := quiet
  rw [clockEdge_of_inflight rst (by simp [lateAck, ack]) hf]
  simp [start]

/-- While an answer is awaited a quiet cycle changes nothing but the undefined contents (`42_time_arith.md` R154). -/
theorem clockEdge_while_waiting {p : Pins} {s : State} {t : CalendarTime} {ph : EncodePhase} (quiet : Quiet p)
    (waits : ph = .wait60 ∨ ∃ nm, ph = .wait3600 nm) (hf : s.inflight = some (.encode t ph)) :
    clockEdge p s = .next (holdEncode s t ph) := by
  rw [clockEdge_quiet_of_inflight quiet hf]
  obtain ⟨-, -, ack⟩ := quiet
  rcases waits with rfl | ⟨nm, rfl⟩ <;> simp [advanceInFlight, advanceEncode, ack]

theorem clockEdge_request60 {s : State} {t : CalendarTime} (hf : s.inflight = some (.encode t .request60)) :
    clockEdge idlePins s = .next (holdEncode s t .wait60) :=
  clockEdge_quiet_of_inflight quiet_idlePins hf

theorem clockEdge_request3600 {s : State} {t nm : CalendarTime}
    (hf : s.inflight = some (.encode t (.request3600 nm))) : clockEdge idlePins s = .next (holdEncode s t (.wait3600 nm)) :=
  clockEdge_quiet_of_inflight quiet_idlePins hf

theorem clockEdge_filling {s : State} {t nm : CalendarTime} {d : Dst} {n : Nat}
    (hf : s.inflight = some (.encode t (.filling nm d n))) : clockEdge idlePins s = .next (workEncode t nm d s n) :=
  clockEdge_quiet_of_inflight quiet_idlePins hf

theorem clockEdge_workingParity {s : State} {b : Frame} {lo hi : BitVec 6} {n : Nat}
    (hf : s.inflight = some (.parity b lo hi n)) : clockEdge idlePins s = .next (workParity b lo hi s n) :=
  clockEdge_quiet_of_inflight quiet_idlePins hf

/-- Acceptance of an ENCODE: the first request follows (log 5). -/
theorem clockEdge_acceptEncode {p : Pins} {s : State} {w : CtWord} (idle : s.inflight = none) (rst : p.rst = false)
    (ack : p.taAck = false) (start : p.start = true) (op : p.op = 0) (t : p.t = .whole w)
    (legal : inRangeCT (ctOfWord w) = true) : clockEdge p s = .next (holdEncode s (ctOfWord w) .request60) := by
  rw [clockEdge_of_idle rst idle]
  simp [ack, start, acceptCommand, op, acceptEncode, t, legal]

theorem clockEdge_acceptParity {s : State} (b : Frame) {lo hi : BitVec 6} (ready : ParityReady s lo hi) :
    clockEdge (parityPins b lo hi) s = .next (workParity b lo hi s Config.latParityWork) := by
  rw [clockEdge_of_idle rfl ready.idle]
  have legal := (legalRange_iff lo hi).mpr ⟨ready.ordered, ready.inside⟩
  simp [parityPins, idlePins, acceptCommand, acceptParity, legal]

/-- The first answer: the second request follows (log 5). -/
theorem clockEdge_nextMinute {p : Pins} {s : State} {t : CalendarTime} {w : CtWord}
    (hf : s.inflight = some (.encode t .wait60)) (rst : p.rst = false) (start : p.start = false) (ack : p.taAck = true)
    (late : p.taLate = false) (taR : p.taR = .whole w) (legal : inRangeCT (ctOfWord w) = true) :
    clockEdge p s = .next (holdEncode s t (.request3600 (ctOfWord w))) := by
  rw [clockEdge_of_inflight rst (by simp [lateAck, late]) hf]
  simp [start, advanceInFlight, advanceEncode, ack, takeNextMinute, taR, legal]

/-- The second answer: its `dst` field is all that is used (`30_encoding.md` R79). -/
theorem clockEdge_nextHour {s : State} {t nm : CalendarTime} {w : CtWord}
    (hf : s.inflight = some (.encode t (.wait3600 nm))) (legal : (ctOfWord w).dst ≠ .reserved) :
    clockEdge (answerPins w) s = .next (workEncode t nm (ctOfWord w).dst s Config.latEncodeWork) := by
  rw [clockEdge_of_inflight rfl rfl hf]
  exact if_neg legal

/-! ## Waiting -/

/-- `s'` is `s` but for what an ENCODE in progress holds: FRAME, STATUS, the operation, `done` and the count of free
values. -/
def EncodeOpen (s s' : State) : Prop :=
  s' = { s with frame := s'.frame, status := s'.status, inflight := s'.inflight, done := s'.done, draws := s'.draws }

theorem encodeOpen_refl (s : State) : EncodeOpen s s := rfl

theorem EncodeOpen.holdEncode {s s' : State} (h : EncodeOpen s s') (t : CalendarTime) (ph : EncodePhase) :
    EncodeOpen s (holdEncode s' t ph) := by
  unfold EncodeOpen at h ⊢
  rw [h]
  rfl

/-- Any list of quiet cycles leaves the same ENCODE waiting for the same answer, by induction on the cycles. -/
theorem runs_while_waiting {s₀ : State} {t : CalendarTime} {ph : EncodePhase}
    (waits : ph = .wait60 ∨ ∃ nm, ph = .wait3600 nm) (cycles : List Pins) (quiet : ∀ p ∈ cycles, Quiet p) (s : State)
    (hf : s.inflight = some (.encode t ph)) (same : EncodeOpen s₀ s) :
    ∃ s', Runs (cycles.map .clock) s s' ∧ s'.inflight = some (.encode t ph) ∧ EncodeOpen s₀ s' := by
  induction cycles generalizing s with
  | nil => exact ⟨s, .nil s, hf, same⟩
  | cons p ps ih =>
    obtain ⟨quiet_p, quiet_ps⟩ := List.forall_mem_cons.mp quiet
    obtain ⟨s', runs, hf', same'⟩ := ih quiet_ps (holdEncode s t ph) rfl (same.holdEncode t ph)
    have first (rest : List HostAction) :
        runAction (.clock p) (setScript s rest) = .next (setScript (holdEncode s t ph) rest) :=
      clockEdge_while_waiting quiet_p waits hf
    exact ⟨s', .cons first runs, hf', same'⟩

/-- As above, when nothing at all is driven. -/
theorem runs_idle_while_waiting {s₀ s : State} {t : CalendarTime} {ph : EncodePhase}
    (waits : ph = .wait60 ∨ ∃ nm, ph = .wait3600 nm) (d : Nat) (hf : s.inflight = some (.encode t ph))
    (same : EncodeOpen s₀ s) :
    ∃ s', Runs (List.replicate d (.clock idlePins)) s s' ∧ s'.inflight = some (.encode t ph) ∧ EncodeOpen s₀ s' := by
  rw [← List.map_replicate]
  refine runs_while_waiting waits _ (fun p hp => ?_) s hf same
  rw [List.eq_of_mem_replicate hp]
  exact quiet_idlePins

/-! ## Working -/

/-- Completing an ENCODE overwrites all it held but the count of free values: no cell comes from the old FRAME. -/
theorem EncodeOpen.finishEncode {s s' : State} (h : EncodeOpen s s') (a b : Dst) (nm : CalendarTime) :
    finishEncode a nm b s' = { finishEncode a nm b s with draws := s'.draws } := by
  unfold EncodeOpen at h
  rw [h]
  simp only [Machine.finishEncode, completeEncode, encodeCore_old s'.frame s.frame]

/-- The working cycles of an ENCODE whose answers are held end in its completion, by induction on their number. -/
theorem runs_workEncode {s₀ : State} (t nm : CalendarTime) (d : Dst) (n : Nat) (s : State) (same : EncodeOpen s₀ s) :
    ∃ s', Runs (List.replicate n (.clock idlePins)) (workEncode t nm d s n) s' ∧
      s' = { finishEncode t.dst nm d s₀ with draws := s'.draws } := by
  induction n generalizing s with
  | zero =>
    refine ⟨_, .nil _, ?_⟩
    rw [workEncode, same.finishEncode]
  | succ n ih =>
    obtain ⟨s', runs, done⟩ := ih (holdEncode s t (.filling nm d n)) (same.holdEncode _ _)
    refine ⟨s', .cons (fun rest => ?_) runs, done⟩
    rw [workEncode, runAction, clockEdge_filling rfl]
    cases n <;> rfl

/-- `s'` is `s` but for what a PARITY in progress holds: PBIT, the operation, `done` and the count of free values. -/
def ParityOpen (s s' : State) : Prop :=
  s' = { s with pbit := s'.pbit, inflight := s'.inflight, done := s'.done, draws := s'.draws }

theorem ParityOpen.holdParity {s s' : State} (h : ParityOpen s s') (b : Frame) (lo hi : BitVec 6) (n : Nat) :
    ParityOpen s (holdParity s' b lo hi n) := by
  unfold ParityOpen at h ⊢
  rw [h]
  rfl

theorem ParityOpen.finishParity {s s' : State} (h : ParityOpen s s') (b : Frame) (lo hi : BitVec 6) :
    finishParity b lo hi s' = { finishParity b lo hi s with draws := s'.draws } := by
  unfold ParityOpen at h
  rw [h]
  rfl

/-- The working cycles of a PARITY end in its completion, by induction on their number. -/
theorem runs_workParity {s₀ : State} (b : Frame) (lo hi : BitVec 6) (n : Nat) (s : State) (same : ParityOpen s₀ s) :
    ∃ s', Runs (List.replicate n (.clock idlePins)) (workParity b lo hi s n) s' ∧
      s' = { finishParity b lo hi s₀ with draws := s'.draws } := by
  induction n generalizing s with
  | zero =>
    refine ⟨_, .nil _, ?_⟩
    rw [workParity, same.finishParity]
  | succ n ih =>
    obtain ⟨s', runs, done⟩ := ih (holdParity s b lo hi n) (same.holdParity b lo hi n)
    refine ⟨s', .cons (fun rest => ?_) runs, done⟩
    rw [workParity, runAction, clockEdge_workingParity rfl]
    cases n <;> rfl

/-! ## Whole operations -/

theorem runs_parityCycles {s : State} (b : Frame) {lo hi : BitVec 6} (ready : ParityReady s lo hi) :
    ∃ s', Runs (parityCycles b lo hi) s s' ∧ s' = { finishParity b lo hi s with draws := s'.draws } := by
  obtain ⟨s', runs, done⟩ := runs_workParity b lo hi Config.latParityWork s rfl
  refine ⟨s', .cons (fun rest => ?_) runs, done⟩
  rw [runAction, clockEdge_acceptParity (s := setScript s rest) b { ready with }]
  cases Config.latParityWork <;> rfl

/-- Command, request, wait and answer, twice, then the working cycles. -/
theorem runs_encodeCycles {s : State} {t nm : CalendarTime} {w : CtWord} (d₁ d₂ : Nat)
    (ready : EncodeReady s t nm (ctOfWord w)) :
    ∃ s', Runs (encodeCycles (wordOfCt t) (wordOfCt nm) w d₁ d₂) s s' ∧
      s' = { finishEncode t.dst nm (ctOfWord w).dst s with draws := s'.draws } := by
  have command (rest : List HostAction) : runAction (.clock (encodePins (wordOfCt t))) (setScript s rest) =
      .next (setScript (holdEncode s t .request60) rest) := by
    rw [runAction, clockEdge_acceptEncode (s := setScript s rest) (w := wordOfCt t) ready.idle rfl rfl rfl rfl rfl
      (by simpa using ready.time), ctOfWord_wordOfCt]
    rfl
  have request₁ (rest : List HostAction) : runAction (.clock idlePins) (setScript (holdEncode s t .request60) rest) =
      .next (setScript (holdEncode (holdEncode s t .request60) t .wait60) rest) := clockEdge_request60 rfl
  obtain ⟨s₁, wait₁, hf₁, same₁⟩ := runs_idle_while_waiting (s₀ := s) (.inl rfl) d₁
    (s := holdEncode (holdEncode s t .request60) t .wait60) rfl ((encodeOpen_refl s).holdEncode _ _ |>.holdEncode _ _)
  have nextMinute (rest : List HostAction) : runAction (.clock (answerPins (wordOfCt nm))) (setScript s₁ rest) =
      .next (setScript (holdEncode s₁ t (.request3600 nm)) rest) := by
    rw [runAction, clockEdge_nextMinute (s := setScript s₁ rest) (w := wordOfCt nm) hf₁ rfl rfl rfl rfl rfl
      (by simpa using ready.legalNM), ctOfWord_wordOfCt]
    rfl
  have request₂ (rest : List HostAction) : runAction (.clock idlePins) (setScript (holdEncode s₁ t (.request3600 nm)) rest) =
      .next (setScript (holdEncode (holdEncode s₁ t (.request3600 nm)) t (.wait3600 nm)) rest) := clockEdge_request3600 rfl
  obtain ⟨s₂, wait₂, hf₂, same₂⟩ := runs_idle_while_waiting (s₀ := s) (.inr ⟨nm, rfl⟩) d₂
    (s := holdEncode (holdEncode s₁ t (.request3600 nm)) t (.wait3600 nm)) rfl (same₁.holdEncode _ _ |>.holdEncode _ _)
  have nextHour (rest : List HostAction) : runAction (.clock (answerPins w)) (setScript s₂ rest) =
      .next (setScript (workEncode t nm (ctOfWord w).dst s₂ Config.latEncodeWork) rest) := by
    rw [runAction, clockEdge_nextHour (s := setScript s₂ rest) hf₂ ready.legalNH]
    cases Config.latEncodeWork <;> rfl
  obtain ⟨s', work, done⟩ := runs_workEncode (s₀ := s) t nm (ctOfWord w).dst Config.latEncodeWork s₂ same₂
  exact ⟨s', ((Runs.cons command (.cons request₁ wait₁)).append (.cons nextMinute (.cons request₂ wait₂))).append
    (.cons nextHour work), done⟩

/-! ## The obligations -/

/-- Settles O37: the run of the cycles ends in the completed PARITY, for any script after them. -/
theorem clockedParityIsTheOperation : Obligations.ClockedParityIsTheOperation := by
  intro s b lo hi rest ready
  obtain ⟨s', runs, done⟩ := runs_parityCycles b ready
  have whole : exec (.parity b lo hi) (setScript s rest) = .next (finishParity b lo hi (setScript s rest)) :=
    (exec_parity_next b lo hi _ _).mpr ⟨{ ready with }, rfl⟩
  exact ⟨_, _, whole, runs rest, congrArg (setScript · rest) done⟩

/-- Settles O38: the run of the cycles ends in the completed ENCODE, for any script after them. -/
theorem clockedEncodeIsTheOperation : Obligations.ClockedEncodeIsTheOperation := by
  intro s t nm w d₁ d₂ rest ready
  obtain ⟨s', runs, done⟩ := runs_encodeCycles d₁ d₂ ready
  have whole : exec (.encode t) (setScript s rest) = .next (finishEncode t.dst nm (ctOfWord w).dst (setScript s rest)) :=
    exec_encode_of_ready { ready with }
  exact ⟨_, _, whole, runs rest, congrArg (setScript · rest) done⟩

/-- Settles O39: the edges of acceptance and of the first answer, and the outputs read off the operation in progress. -/
theorem requestsCarryTheUnmodifiedTime : Obligations.RequestsCarryTheUnmodifiedTime := by
  refine ⟨fun s p w idle rst ack start op t legal => ?first, fun s p t w hf rst start ack late taR legal => ?second,
    fun s a w request => (taRequest_eq_some_iff s a w).mp request, statedTaT_eq_some_iff⟩
  case first =>
    refine ⟨_, clockEdge_acceptEncode idle rst ack start op t legal, rfl, ?_⟩
    simp [taRequest]
  case second => exact ⟨_, clockEdge_nextMinute hf rst start ack late taR legal, rfl, rfl⟩

/-- Settles O40: the run of the quiet cycles. -/
theorem unansweredRequestStaysBusy : Obligations.UnansweredRequestStaysBusy := by
  intro s t ph cycles waits hf quiet
  obtain ⟨s', runs, hf', -⟩ := runs_while_waiting waits cycles quiet s hf (encodeOpen_refl s)
  have answer := runs []
  rw [List.length_map, List.append_nil] at answer
  refine ⟨_, answer, hf', ?_, (statedTaT_eq_some_iff _ _).mpr ⟨t, ph, hf', rfl⟩⟩
  simp [State.busy, hf']

end Sys2Proof.Proofs
end

