-- ==== Sys2Proof/Proofs/WallClock.lean ====
section
/-! The wall clock of the reference primitive, and that sixty of its minutes are one hour (`42_time_arith.md` section 3,
R158). -/

namespace Sys2Proof.Proofs

open Sys2Proof.Machine Sys2Proof.Safety

/-! ## The wall clock, case by case (`42_time_arith.md` R158) -/

/-- The weekday after `dow`. -/
def nextDow (dow : BitVec 3) : BitVec 3 := BitVec.ofNat 3 ((dow.toNat + 1) % 7)

theorem nextDow_toNat (dow : BitVec 3) : (nextDow dow).toNat = (dow.toNat + 1) % 7 := by
  rw [nextDow, BitVec.toNat_ofNat]
  omega

/-- Counting up without overflow. -/
theorem toNat_add_one {w : Nat} {x : BitVec w} (h : x.toNat + 1 < 2 ^ w) : (x + 1).toNat = x.toNat + 1 := by
  have one_lt : 1 < 2 ^ w := by omega
  have one : (1 : BitVec w).toNat = 1 := Nat.mod_eq_of_lt one_lt
  rw [BitVec.toNat_add, one, Nat.mod_eq_of_lt h]

section
variable {century : Nat} {t : CalendarTime}

/-- The number of days of the month of `t`. -/
def monthLength (century : Nat) (t : CalendarTime) : Nat := daysIn t.month.toNat (calendarYear century t.year)

theorem addOneDay_inMonth (day : t.day.toNat < monthLength century t) :
    addOneDay century t = some { t with dow := nextDow t.dow, day := t.day + 1 } :=
  if_pos day

theorem addOneDay_endOfMonth (day : monthLength century t ≤ t.day.toNat) (month : t.month.toNat < 12) :
    addOneDay century t = some { t with dow := nextDow t.dow, day := 1, month := t.month + 1 } :=
  (if_neg (Nat.not_lt.mpr day)).trans (if_pos month)

theorem addOneDay_endOfYear (day : monthLength century t ≤ t.day.toNat) (month : 12 ≤ t.month.toNat)
    (year : t.year.toNat < 4095) :
    addOneDay century t = some { t with dow := nextDow t.dow, day := 1, month := 1, year := t.year + 1 } :=
  (if_neg (Nat.not_lt.mpr day)).trans ((if_neg (Nat.not_lt.mpr month)).trans (if_pos year))

theorem addOneDay_endOfYears (day : monthLength century t ≤ t.day.toNat) (month : 12 ≤ t.month.toNat)
    (year : 4095 ≤ t.year.toNat) : addOneDay century t = none :=
  (if_neg (Nat.not_lt.mpr day)).trans ((if_neg (Nat.not_lt.mpr month)).trans (if_neg (Nat.not_lt.mpr year)))

theorem addOneHour_inDay (hour : t.hour.toNat < 23) : addOneHour century t = some { t with hour := t.hour + 1 } :=
  if_pos hour

theorem addOneHour_endOfDay (hour : 23 ≤ t.hour.toNat) :
    addOneHour century t = addOneDay century { t with hour := 0 } :=
  if_neg (Nat.not_lt.mpr hour)

theorem wallAdd_minute_inHour (minute : t.minute.toNat < 59) :
    wallAdd century t .minute = some { t with minute := t.minute + 1 } :=
  if_pos minute

theorem wallAdd_minute_endOfHour (minute : 59 ≤ t.minute.toNat) :
    wallAdd century t .minute = addOneHour century { t with minute := 0 } :=
  if_neg (Nat.not_lt.mpr minute)

end

/-! ## Sixty minutes -/

/-- The time with another minute. -/
def withMinute (m : Nat) (t : CalendarTime) : CalendarTime := { t with minute := BitVec.ofNat 6 m }

theorem withMinute_self (t : CalendarTime) : withMinute t.minute.toNat t = t := by
  rw [withMinute, BitVec.ofNat_toNat, BitVec.setWidth_eq]

theorem addOneDay_withMinute (century m : Nat) (t : CalendarTime) :
    addOneDay century (withMinute m t) = (addOneDay century t).map (withMinute m) := by
  simp only [addOneDay, apply_ite (Option.map (withMinute m))]
  rfl

/-- The hour advances whatever the minute is. -/
theorem addOneHour_withMinute (century m : Nat) (t : CalendarTime) :
    addOneHour century (withMinute m t) = (addOneHour century t).map (withMinute m) := by
  simp only [addOneHour, apply_ite (Option.map (withMinute m)), ← addOneDay_withMinute]
  rfl

/-- One minute by WallAdd, "cannot resolve" staying so. -/
def addMinute (century : Nat) (x : Option CalendarTime) : Option CalendarTime :=
  x.bind fun r => wallAdd century r .minute

/-- Minutes inside the hour add up, by induction on their number. -/
theorem addMinute_iterate_inHour (century : Nat) (t : CalendarTime) (m n : Nat) (h : m + n ≤ 59) :
    (addMinute century)^[n] (some (withMinute m t)) = some (withMinute (m + n) t) := by
  induction n with
  | zero => rfl
  | succ n ih =>
    have minute : (withMinute (m + n) t).minute.toNat = m + n := Nat.mod_eq_of_lt (by omega)
    rw [Function.iterate_succ_apply', ih (by omega)]
    refine (wallAdd_minute_inHour (by omega)).trans (congrArg some ?_)
    simp [withMinute, BitVec.ofNat_add, ← Nat.add_assoc]

/-- The last minute of an hour is followed by minute 0 of the hour after it. -/
theorem addMinute_endOfHour (century : Nat) (t : CalendarTime) :
    addMinute century (some (withMinute 59 t)) = (addOneHour century t).map (withMinute 0) :=
  (wallAdd_minute_endOfHour (t := withMinute 59 t) (Nat.le_refl 59)).trans (addOneHour_withMinute century 0 t)

theorem addMinute_iterate_none (century n : Nat) : (addMinute century)^[n] none = none :=
  Function.iterate_fixed rfl n

/-- Settles O46: the rest of the hour, the change of the hour, and as many minutes of the next hour as the first one had. -/
theorem sixtyMinutesAreOneHour : Obligations.SixtyMinutesAreOneHour := by
  intro century t le
  change (addMinute century)^[60] (some t) = addOneHour century t
  obtain ⟨m, hm⟩ : ∃ m, m = t.minute.toNat := ⟨_, rfl⟩
  have self : withMinute m t = t := hm ▸ withMinute_self t
  have keeps_minute : (addOneHour century t).map (withMinute m) = addOneHour century t := by
    rw [← addOneHour_withMinute, self]
  calc (addMinute century)^[60] (some t)
      = (addMinute century)^[m] (addMinute century ((addMinute century)^[59 - m] (some (withMinute m t)))) := by
        rw [self, ← Function.iterate_succ_apply' (addMinute century), ← Function.iterate_add_apply (addMinute century)]
        congr 1
        omega
    _ = (addMinute century)^[m] ((addOneHour century t).map (withMinute 0)) := by
        rw [addMinute_iterate_inHour _ _ _ _ (by omega), Nat.add_sub_cancel' (by omega), addMinute_endOfHour]
    _ = (addOneHour century t).map (withMinute m) := by
        cases addOneHour century t with
        | none => exact addMinute_iterate_none century m
        | some r => exact (addMinute_iterate_inHour century r 0 m (by omega)).trans (by rw [Nat.zero_add]; rfl)
    _ = addOneHour century t := keeps_minute

end Sys2Proof.Proofs
end

