-- ==== Sys2Proof/Proofs/Reference.lean ====
section
/-! The reference primitive answers real dates with real dates (`42_time_arith.md` R157, R158), and with it ENCODE describes
the minute after T (`41_encode.md` section 6, R139). -/

namespace Sys2Proof.Proofs

open Sys2Proof.Machine Sys2Proof.Safety

/-! ## Real dates -/

theorem realDate_iff (century : Nat) (t : CalendarTime) :
    realDate century t = true ↔ LegalFields t ∧ t.day.toNat ≤ monthLength century t := by
  rw [realDate, Bool.and_eq_true, decide_eq_true_iff, inRangeCT_iff, monthLength]

/-- A month has 28 to 31 days. -/
theorem daysIn_bounds (month y : Nat) : 28 ≤ daysIn month y ∧ daysIn month y ≤ 31 := by
  unfold daysIn
  split_ifs <;> decide

theorem daysIn_december (y : Nat) : daysIn 12 y = 31 := rfl

/-- `r` is a real date on which the weekday has advanced with the day of `t`. -/
structure Follows (century : Nat) (t r : CalendarTime) : Prop where
  real : realDate century r = true
  dow  : r.dow.toNat = if r.day = t.day then t.dow.toNat else (t.dow.toNat + 1) % 7

section
variable {century : Nat} {t r : CalendarTime}

/-- What the next day has to be: legal, with the weekday after that of `t`, at the same time of day. -/
theorem follows_of_next_day (real : realDate century t = true)
    (time : r.minute = t.minute ∧ r.hour = t.hour ∧ r.dst = t.dst) (dow : r.dow = nextDow t.dow) (moved : r.day ≠ t.day)
    (day : 1 ≤ r.day.toNat ∧ r.day.toNat ≤ monthLength century r) (month : 1 ≤ r.month.toNat ∧ r.month.toNat ≤ 12) :
    Follows century t r := by
  have fields := ((realDate_iff century t).mp real).1
  obtain ⟨minute, hour, dst⟩ := time
  have day_le : r.day.toNat ≤ 31 := day.2.trans (daysIn_bounds _ _).2
  have dow_le : r.dow.toNat ≤ 6 := by rw [dow, nextDow_toNat]; omega
  constructor
  case real =>
    exact (realDate_iff century r).mpr ⟨⟨minute ▸ fields.minute, hour ▸ fields.hour, ⟨day.1, day_le⟩, dow_le, month,
      dst ▸ fields.dst⟩, day.2⟩
  case dow => rw [if_neg moved, dow, nextDow_toNat]

/-- Every month has a first day, and it is not the last one. -/
theorem first_day_bounds (x : CalendarTime) :
    1 ≤ (1 : BitVec 5).toNat ∧ (1 : BitVec 5).toNat ≤ monthLength century x :=
  ⟨by decide, le_trans (by decide) (daysIn_bounds _ _).1⟩

theorem first_day_ne_of_last (day : monthLength century t ≤ t.day.toNat) : (1 : BitVec 5) ≠ t.day := fun first => by
  rw [← first] at day
  exact absurd ((daysIn_bounds _ _).1.trans day) (by decide)

/-- Every answer of the day step, by where `t` stands in the month and the year (`42_time_arith.md` R158). -/
inductive NextDay (century : Nat) (t : CalendarTime) : CalendarTime → Prop where
  | inMonth (day : t.day.toNat < monthLength century t) :
      NextDay century t { t with dow := nextDow t.dow, day := t.day + 1 }
  | endOfMonth (day : monthLength century t ≤ t.day.toNat) (month : t.month.toNat < 12) :
      NextDay century t { t with dow := nextDow t.dow, day := 1, month := t.month + 1 }
  | endOfYear (day : monthLength century t ≤ t.day.toNat) (month : 12 ≤ t.month.toNat) (year : t.year.toNat < 4095) :
      NextDay century t { t with dow := nextDow t.dow, day := 1, month := 1, year := t.year + 1 }

theorem nextDay_of_addOneDay (h : addOneDay century t = some r) : NextDay century t r := by
  rcases Nat.lt_or_ge t.day.toNat (monthLength century t) with day | day
  · rw [addOneDay_inMonth day] at h
    exact Option.some.inj h ▸ .inMonth day
  rcases Nat.lt_or_ge t.month.toNat 12 with month | month
  · rw [addOneDay_endOfMonth day month] at h
    exact Option.some.inj h ▸ .endOfMonth day month
  rcases Nat.lt_or_ge t.year.toNat 4095 with year | year
  · rw [addOneDay_endOfYear day month year] at h
    exact Option.some.inj h ▸ .endOfYear day month year
  · rw [addOneDay_endOfYears day month year] at h
    cases h

theorem day_add_one_toNat (day : t.day.toNat < monthLength century t) : (t.day + 1).toNat = t.day.toNat + 1 := by
  have length_le : monthLength century t ≤ 31 := (daysIn_bounds _ _).2
  exact toNat_add_one (by omega)

theorem month_add_one_toNat (month : t.month.toNat < 12) : (t.month + 1).toNat = t.month.toNat + 1 :=
  toNat_add_one (by omega)

theorem follows_of_addOneDay (real : realDate century t = true) (h : addOneDay century t = some r) :
    Follows century t r := by
  have fields := ((realDate_iff century t).mp real).1
  cases nextDay_of_addOneDay h with
  | inMonth day =>
    have next := day_add_one_toNat day
    have moved : t.day + 1 ≠ t.day := fun same => by rw [same] at next; omega
    exact follows_of_next_day real ⟨rfl, rfl, rfl⟩ rfl moved
      ⟨(Nat.le_add_left 1 _).trans_eq next.symm, next.trans_le day⟩ fields.month
  | endOfMonth day month =>
    have next := month_add_one_toNat month
    exact follows_of_next_day real ⟨rfl, rfl, rfl⟩ rfl (first_day_ne_of_last day) (first_day_bounds _)
      ⟨(Nat.le_add_left 1 _).trans_eq next.symm, next.trans_le month⟩
  | endOfYear day month year =>
    have january : 1 ≤ (1 : BitVec 4).toNat ∧ (1 : BitVec 4).toNat ≤ 12 := by decide
    exact follows_of_next_day real ⟨rfl, rfl, rfl⟩ rfl (first_day_ne_of_last day) (first_day_bounds _) january

/-- A real date stays one when only its time of day or its daylight-saving state is replaced by a legal one. -/
theorem realDate_of_same_day {x : CalendarTime} (real : realDate century t = true) (minute : x.minute.toNat ≤ 59)
    (hour : x.hour.toNat ≤ 23) (dst : x.dst ≠ .reserved)
    (same : x.day = t.day ∧ x.dow = t.dow ∧ x.month = t.month ∧ x.year = t.year) : realDate century x = true := by
  obtain ⟨fields, inMonth⟩ := (realDate_iff century t).mp real
  obtain ⟨day, dow, month, year⟩ := same
  refine (realDate_iff century x).mpr ⟨⟨minute, hour, ?_, ?_, ?_, dst⟩, ?_⟩
  · rw [day]; exact fields.day
  · rw [dow]; exact fields.dow
  · rw [month]; exact fields.month
  · rw [monthLength, day, month, year]; exact inMonth

theorem realDate_midnight (real : realDate century t = true) : realDate century { t with hour := 0 } = true := by
  have fields := ((realDate_iff century t).mp real).1
  exact realDate_of_same_day real fields.minute (Nat.zero_le 23) fields.dst ⟨rfl, rfl, rfl, rfl⟩

theorem realDate_fullHour (real : realDate century t = true) : realDate century { t with minute := 0 } = true := by
  have fields := ((realDate_iff century t).mp real).1
  exact realDate_of_same_day real (Nat.zero_le 59) fields.hour fields.dst ⟨rfl, rfl, rfl, rfl⟩

theorem follows_of_addOneHour (real : realDate century t = true) (h : addOneHour century t = some r) :
    Follows century t r := by
  have fields := ((realDate_iff century t).mp real).1
  rcases Nat.lt_or_ge t.hour.toNat 23 with hour | hour
  · have next : (t.hour + 1).toNat = t.hour.toNat + 1 := toNat_add_one (by omega)
    rw [addOneHour_inDay hour] at h
    injection h with h
    subst h
    exact ⟨realDate_of_same_day real fields.minute (by simp only [next]; omega) fields.dst ⟨rfl, rfl, rfl, rfl⟩,
      (if_pos rfl).symm⟩
  · rw [addOneHour_endOfDay hour] at h
    exact { follows_of_addOneDay (realDate_midnight real) h with }

theorem follows_of_wallAdd {a : Advance} (real : realDate century t = true) (h : wallAdd century t a = some r) :
    Follows century t r := by
  have fields := ((realDate_iff century t).mp real).1
  cases a with
  | hour => exact follows_of_addOneHour real h
  | minute =>
    rcases Nat.lt_or_ge t.minute.toNat 59 with minute | minute
    · have next : (t.minute + 1).toNat = t.minute.toNat + 1 := toNat_add_one (by omega)
      rw [wallAdd_minute_inHour minute] at h
      injection h with h
      subst h
      exact ⟨realDate_of_same_day real (by simp only [next]; omega) fields.hour fields.dst ⟨rfl, rfl, rfl, rfl⟩,
        (if_pos rfl).symm⟩
    · rw [wallAdd_minute_endOfHour minute] at h
      exact { follows_of_addOneHour (realDate_fullHour real) h with }

/-! ## The end of the years -/

/-- The day after a real date has no number of the year only on 31 December 4095 (`42_time_arith.md` R158). -/
theorem addOneDay_eq_none_iff (real : realDate century t = true) : addOneDay century t = none ↔
    t.year.toNat = 4095 ∧ t.month.toNat = 12 ∧ t.day.toNat = 31 := by
  obtain ⟨fields, inMonth⟩ := (realDate_iff century t).mp real
  have month_le := fields.month.2
  have year_lt := t.year.isLt
  constructor
  · intro h
    rcases Nat.lt_or_ge t.day.toNat (monthLength century t) with day | day
    · simp [addOneDay_inMonth day] at h
    rcases Nat.lt_or_ge t.month.toNat 12 with month | month
    · simp [addOneDay_endOfMonth day month] at h
    rcases Nat.lt_or_ge t.year.toNat 4095 with year | year
    · simp [addOneDay_endOfYear day month year] at h
    have december : t.month.toNat = 12 := by omega
    rw [monthLength, december, daysIn_december] at day inMonth
    exact ⟨by omega, december, by omega⟩
  · rintro ⟨year, month, day⟩
    have length : monthLength century t = 31 := by rw [monthLength, month, daysIn_december]
    exact addOneDay_endOfYears (by omega) (by omega) (by omega)

theorem addOneHour_eq_none_iff (real : realDate century t = true) : addOneHour century t = none ↔
    t.year.toNat = 4095 ∧ t.month.toNat = 12 ∧ t.day.toNat = 31 ∧ t.hour.toNat = 23 := by
  have fields := ((realDate_iff century t).mp real).1
  have hour_le := fields.hour
  rcases Nat.lt_or_ge t.hour.toNat 23 with hour | hour
  · rw [addOneHour_inDay hour]
    exact iff_of_false nofun (by omega)
  · rw [addOneHour_endOfDay hour, addOneDay_eq_none_iff (realDate_midnight real)]
    dsimp only
    omega

theorem wallAdd_eq_none_iff (real : realDate century t = true) (a : Advance) : wallAdd century t a = none ↔
    t.year.toNat = 4095 ∧ t.month.toNat = 12 ∧ t.day.toNat = 31 ∧ t.hour.toNat = 23 ∧
      (a = .minute → t.minute.toNat = 59) := by
  have fields := ((realDate_iff century t).mp real).1
  have minute_le := fields.minute
  cases a with
  | hour =>
    rw [wallAdd, addOneHour_eq_none_iff real]
    simp
  | minute =>
    rcases Nat.lt_or_ge t.minute.toNat 59 with minute | minute
    · rw [wallAdd_minute_inHour minute]
      exact iff_of_false nofun fun h => absurd (h.2.2.2.2 rfl) (by omega)
    · have last : t.minute.toNat = 59 := by omega
      rw [wallAdd_minute_endOfHour minute, addOneHour_eq_none_iff (realDate_fullHour real)]
      simp [last]

end

/-! ## The reference primitive -/

theorem dstOfState_ne_reserved (d : DstState) : dstOfState d ≠ .reserved := by
  cases d <;> decide

theorem timeAddRef_of_real {century : Nat} {t : CalendarTime} (real : realDate century t = true)
    (d : CalendarTime → Advance → DstState) (a : Advance) :
    timeAddRef century d t a = (wallAdd century t a).map fun w => { w with dst := dstOfState (d t a) } :=
  if_pos real

/-- Replacing the daylight-saving state by one of `DstNext` keeps a real date. -/
theorem realDate_with_dst {century : Nat} {w : CalendarTime} (real : realDate century w = true) (d : DstState) :
    realDate century { w with dst := dstOfState d } = true := by
  have fields := ((realDate_iff century w).mp real).1
  exact realDate_of_same_day real fields.minute fields.hour (dstOfState_ne_reserved d) ⟨rfl, rfl, rfl, rfl⟩

/-- Settles O47: the answers are those of the wall clock, which follow T and end with the year 4095. -/
theorem referenceAnswersAreRealDates : Obligations.ReferenceAnswersAreRealDates := by
  intro century d t a
  refine ⟨fun unreal => ?_, fun real => ⟨?_, fun r h => ?_⟩⟩
  · simp [timeAddRef, unreal]
  · rw [timeAddRef_of_real real, Option.map_eq_none_iff, wallAdd_eq_none_iff real]
  · rw [timeAddRef_of_real real, Option.map_eq_some_iff] at h
    obtain ⟨w, answer, rfl⟩ := h
    have follows := follows_of_wallAdd real answer
    exact ⟨realDate_with_dst follows.real _, ⟨w, answer, rfl⟩, follows.dow⟩

/-! ## ENCODE with the reference primitive -/

/-- ENCODE attached to the reference primitive is ready for every real date one hour after which the wall clock answers. -/
theorem exists_encodeReady_reference {s : State} {century : Nat} {rows : List DstRow} {t : CalendarTime}
    (idle : s.inflight = none) (platform : s.platform = .reference century rows) (real : realDate century t = true)
    (answers : wallAdd century t .hour ≠ none) :
    ∃ w d nh, wallAdd century t .minute = some w ∧ EncodeReady s t { w with dst := d } nh := by
  have minute_answers : wallAdd century t .minute ≠ none := fun h => by
    obtain ⟨year, month, day, hour, -⟩ := (wallAdd_eq_none_iff real .minute).mp h
    exact answers ((wallAdd_eq_none_iff real .hour).mpr ⟨year, month, day, hour, nofun⟩)
  obtain ⟨w, hw⟩ := Option.ne_none_iff_exists'.mp minute_answers
  obtain ⟨v, hv⟩ := Option.ne_none_iff_exists'.mp answers
  have answer {x : CalendarTime} {a : Advance} (hx : wallAdd century t a = some x) :
      timeAdd s.platform t a = some { x with dst := dstOfState (listedDst t a rows) } := by
    rw [platform, timeAdd, timeAddRef_of_real real, hx]
    rfl
  have legal (x : CalendarTime) (h : realDate century x = true) : inRangeCT x = true :=
    (inRangeCT_iff x).mpr ((realDate_iff century x).mp h).1
  exact ⟨w, _, _, hw, idle, legal t real, answer hw, answer hv,
    legal _ (realDate_with_dst (follows_of_wallAdd real hw).real _), dstOfState_ne_reserved _⟩

/-- A completed ENCODE carries the minute, the hour and the date of NM (`30_encoding.md` R76, R77). -/
theorem finishEncode_carries {s : State} {t nm nh : CalendarTime} (ready : EncodeReady s t nm nh) :
    minuteOf (finishEncode t.dst nm nh.dst s).frame = nm.minute.toNat ∧
    hourOf (finishEncode t.dst nm nh.dst s).frame = nm.hour.toNat ∧
    SameDate (finishEncode t.dst nm nh.dst s).frame nm := by
  obtain ⟨minute, hour, day, wday, month, year, -, -⟩ := status_of_format _ _ nm _ (finishEncode_format ready)
  exact ⟨minute, hour, day, wday.trans (frameWeekday_toNat nm.dow), month, year⟩

/-- The weekday of the frame after midnight (`41_encode.md` R131): Saturday is followed by 7, Sunday. -/
theorem frame_weekday_of_nextDow {dow : BitVec 3} (le : dow.toNat ≤ 6) :
    (if nextDow dow = 0 then 7 else (nextDow dow).toNat) = dow.toNat + 1 := by
  have zero_iff : nextDow dow = 0 ↔ (dow.toNat + 1) % 7 = 0 := by
    rw [← nextDow_toNat, ← BitVec.toNat_inj]
    rfl
  rw [nextDow_toNat]
  split
  · next sunday => rw [zero_iff] at sunday; omega
  · next weekday => rw [zero_iff] at weekday; omega

/-- The next day keeps the time of day and takes the next weekday. -/
theorem time_of_addOneDay {century : Nat} {t w : CalendarTime} (h : addOneDay century t = some w) :
    w.minute = t.minute ∧ w.hour = t.hour ∧ w.dow = nextDow t.dow := by
  cases nextDay_of_addOneDay h <;> exact ⟨rfl, rfl, rfl⟩

/-- A frame of the day after `t` carries the date of one of the cases of `42_time_arith.md` R158. -/
theorem date_of_next_day {century : Nat} {t w : CalendarTime} {f : Frame} (h : addOneDay century t = some w)
    (date : SameDate f w) :
    (t.day.toNat < monthLength century t →
      dayOf f = t.day.toNat + 1 ∧ monthOf f = t.month.toNat ∧ yearOf f = t.year.toNat % 100) ∧
    (t.day.toNat = monthLength century t → dayOf f = 1 ∧
      (t.month.toNat < 12 → monthOf f = t.month.toNat + 1 ∧ yearOf f = t.year.toNat % 100) ∧
      (t.month.toNat = 12 → monthOf f = 1 ∧ yearOf f = (t.year.toNat + 1) % 100)) := by
  cases nextDay_of_addOneDay h with
  | inMonth day =>
    exact ⟨fun _ => ⟨date.day.trans (day_add_one_toNat day), date.month, date.year⟩, fun last => absurd last day.ne⟩
  | endOfMonth day month =>
    exact ⟨fun inside => absurd inside (Nat.not_lt.mpr day), fun _ => ⟨date.day,
      fun _ => ⟨date.month.trans (month_add_one_toNat month), date.year⟩, fun december => absurd december month.ne⟩⟩
  | endOfYear day month year =>
    have year_eq : yearOf f = (t.year.toNat + 1) % 100 := date.year.trans (by rw [toNat_add_one (by omega)])
    exact ⟨fun inside => absurd inside (Nat.not_lt.mpr day), fun _ => ⟨date.day,
      fun inYear => absurd inYear (Nat.not_lt.mpr month), fun _ => ⟨date.month, year_eq⟩⟩⟩

/-- Settles O48: the frame carries the wall clock's next minute, which is taken in the cases of R158. -/
theorem referenceEncodeDescribesTheFollowingMinute : Obligations.ReferenceEncodeDescribesTheFollowingMinute := by
  intro s century rows t idle platform real answers
  obtain ⟨w, d, nh, hw, ready⟩ := exists_encodeReady_reference idle platform real answers
  obtain ⟨minute, hour, date⟩ := finishEncode_carries ready
  refine ⟨_, exec_encode_of_ready ready, ?_⟩
  generalize (finishEncode t.dst { w with dst := d } nh.dst s).frame = f at *
  have date : SameDate f w := { date with }
  have fields := ((realDate_iff century t).mp real).1
  refine ⟨fun inHour => ?inHour, fun endOfHour inDay => ?endOfHour, fun endOfHour endOfDay => ?endOfDay⟩
  case inHour =>
    rw [wallAdd_minute_inHour inHour] at hw
    injection hw with hw
    subst hw
    exact ⟨minute.trans (toNat_add_one (by omega)), hour, { date with }⟩
  case endOfHour =>
    rw [wallAdd_minute_endOfHour endOfHour.ge, addOneHour_inDay (t := { t with minute := 0 }) inDay] at hw
    injection hw with hw
    subst hw
    exact ⟨minute, hour.trans (toNat_add_one (x := t.hour) (by omega)), { date with }⟩
  case endOfDay =>
    rw [wallAdd_minute_endOfHour endOfHour.ge, addOneHour_endOfDay (t := { t with minute := 0 }) endOfDay.ge] at hw
    obtain ⟨minute_eq, hour_eq, dow_eq⟩ := time_of_addOneDay hw
    have wday := date.wday
    rw [dow_eq] at wday
    refine ⟨minute.trans (congrArg BitVec.toNat minute_eq), hour.trans (congrArg BitVec.toNat hour_eq),
      wday.trans (frame_weekday_of_nextDow fields.dow), date_of_next_day (t := { t with minute := 0, hour := 0 }) hw date⟩

end Sys2Proof.Proofs
end
